-- ==== Sys2Proof/Word.lean ====
section
/-! DEFINITION. The widths of the CORE: words, bytes and command words (00_scope.md R6, R7). -/

namespace Sys2Proof

/-- A byte, `u8` (R7). -/
abbrev Byte := BitVec 8

/-- A word of the datapath, `u32` (R6 `WORD`, R7). -/
abbrev Word := BitVec 32

/-- A command word, `u16` (R6 `CMD_WIDTH`, 30_encoding.md R70). -/
abbrev Cmd := BitVec 16

end Sys2Proof
end

