-- ==== Sys2Proof/Machine/Operands.lean ====
section
/-! DEFINITION. The conversions between bytes and words, every one of them big-endian (20_memory.md R52), and the bytes of a
16-bit constant (30_encoding.md R77). -/

namespace Sys2Proof.Machine

/-- Byte `j` of a word, counted from the most significant: `w[31-8j : 24-8j]` (20_memory.md R51, R54). -/
def wordByte (w : Word) (j : Nat) : Byte := w.extractLsb' (24 - 8 * j) 8

/-- The four bytes of a word, most significant first (R52). -/
def wordBytes (w : Word) : List Byte := [wordByte w 0, wordByte w 1, wordByte w 2, wordByte w 3]

/-- Four bytes as a word, `b0 ‖ b1 ‖ b2 ‖ b3` with `b0` the most significant (R51). -/
def wordOfBytes (b0 b1 b2 b3 : Byte) : Word := b0 ++ b1 ++ b2 ++ b3

/-- The two bytes of a 16-bit constant, most significant first (R77, 40_commands.md R105). -/
def halfBytes (v : BitVec 16) : List Byte := [v.extractLsb' 8 8, v.extractLsb' 0 8]

end Sys2Proof.Machine
end

