-- ==== Sys2Proof/Config.lean ====
section
/-! DEFINITION. The implementation parameters that the spec leaves to the build (00_scope.md R6, 92_eei_decisions.md D1, D2). -/

namespace Sys2Proof

/-- `ALG`: the algorithm an engine instance is bound to at build time (R6, D1). -/
inductive Alg where
  | sha1
  | sha256
deriving DecidableEq, Repr

/-- `N_ENGINES` and the `ALG` of each, for the machine `State.reset` describes.
The spec leaves it OPEN (R6, D2): DESIGN CHOICE, one engine of each algorithm (log entry 1).
`Sys2Proof.Machine.State.por` takes any list, and the statements are about every list. -/
def Config.engines : List Alg := [.sha1, .sha256]

end Sys2Proof
end

