-- ==== Sys2Proof/Machine/InitialHash.lean ====
section
/-! DEFINITION. The working hash and its initial values (10_state.md R21, 42_sha1.md R161, 43_sha256.md R181). -/

namespace Sys2Proof.Machine

/-- `working_hash`, the register array `H[0..NH-1]`: 5 words for SHA-1, 8 for SHA-256 (R20, R21).
Its constructor is the engine's build-time `ALG` (00_scope.md R6, log entry 11). -/
inductive WorkingHash where
  | sha1 (h : Vector Word 5)
  | sha256 (h : Vector Word 8)
deriving DecidableEq, Repr

/-- The algorithm a working hash belongs to. -/
def WorkingHash.alg : WorkingHash → Alg
  | .sha1 _   => .sha1
  | .sha256 _ => .sha256

/-- The words of `H` in ascending index order. -/
def WorkingHash.words : WorkingHash → List Word
  | .sha1 h   => h.toList
  | .sha256 h => h.toList

/-- `IV_SHA1` (R161, supplied by the spec from general knowledge GK-1: log entry 12). -/
def ivSha1 : Vector Word 5 :=
  #v[0x67452301, 0xEFCDAB89, 0x98BADCFE, 0x10325476, 0xC3D2E1F0]

/-- `IV_SHA256` (R181, supplied by the spec from general knowledge GK-2: log entry 12). -/
def ivSha256 : Vector Word 8 :=
  #v[0x6A09E667, 0xBB67AE85, 0x3C6EF372, 0xA54FF53A,
     0x510E527F, 0x9B05688C, 0x1F83D9AB, 0x5BE0CD19]

/-- `IV_ALG`: the initial hash value of an algorithm (R35, 40_commands.md R104). -/
def initialHash : Alg → WorkingHash
  | .sha1   => .sha1 ivSha1
  | .sha256 => .sha256 ivSha256

end Sys2Proof.Machine
end

