-- ==== Sys2Proof/Machine/Engine.lean ====
section
/-! DEFINITION. The state of one engine instance (10_state.md R20 to R35), its constants (R30), its mode (R28), and the
power-on reset value of all of it (R35, 70_reset_and_hazards.md R260). -/

namespace Sys2Proof.Machine

/-- The block buffer `buf[0..63]` (R22, 20_memory.md R50): (address, byte) pairs in the canonical form `Memory.wf`.
An address that is not listed reads `Memory.unlisted` (log entry 10). -/
abbrev Memory := List Host.Cell

/-- What an unlisted byte of the buffer reads as: the reset contents of R35, "zeroed buffer". -/
def Memory.unlisted : Byte := 0x00

/-- The canonical form: addresses strictly rising and inside 0..63, no byte equal to `Memory.unlisted`. -/
abbrev Memory.wf (m : Memory) : Prop :=
  m.Pairwise (fun x y => x.1 < y.1) ∧ ∀ c ∈ m, c.1 < 64 ∧ c.2 ≠ Memory.unlisted

/-- The state of one engine instance (R20), each field under the spec's name for it. -/
structure Engine where
  /-- `H`, the working hash (R21); its constructor is the engine's `ALG`. -/
  H          : WorkingHash
  /-- `buf`, the block buffer (R22). -/
  buf        : Memory
  /-- `block_index`, the number of valid bytes in `buf`, 0..63 between commands (R20, R23). -/
  blockIndex : Fin 64
  /-- `len_lo`, bit_length[31:0] (R24). -/
  lenLo      : Word
  /-- `len_hi`, bit_length[63:32] (R24). -/
  lenHi      : Word
  /-- `finalized` (R25). -/
  finalized  : Bool
  /-- `corrupted` (R26). -/
  corrupted  : Bool
  /-- `faulted` (R27). -/
  faulted    : Bool
  /-- `fault_cause`, the 2-bit status code of the fault, meaningful only when `faulted` (R27). -/
  faultCause : BitVec 2
  /-- `fault_cmd`, the command word that faulted, meaningful only when `faulted` (R27). -/
  faultCmd   : Cmd
  /-- Whether the power-on reset of this engine has completed (70_reset_and_hazards.md R263, D26; log entry 8). -/
  porDone    : Bool
deriving DecidableEq, Repr

/-- The build-time `ALG` of an engine (00_scope.md R6, D1). -/
def Engine.alg (e : Engine) : Alg := e.H.alg

/-- `bit_length = len_hi ‖ len_lo` (R24). -/
def Engine.bitLength (e : Engine) : BitVec 64 := e.lenHi ++ e.lenLo

/-- The read-only constant `OUTPUT_BITS` (R30). -/
def outputBits : Alg → BitVec 16
  | .sha1   => 0x00A0
  | .sha256 => 0x0100

/-- The read-only constant `OUTPUT_BYTES` (R30). -/
def outputBytes : Alg → BitVec 16
  | .sha1   => 0x0014
  | .sha256 => 0x0020

/-- The read-only constant `BLOCK_SIZE`, the same for both algorithms (R30). -/
def blockSize : Alg → BitVec 16
  | .sha1   => 0x0040
  | .sha256 => 0x0040

/-- The mode of an engine, a function of its flags (R28). -/
inductive Mode where
  | absorbing
  | finalized
  | corrupted
  | faulted
deriving DecidableEq, Repr

/-- The table of R28. Its rows exclude each other where R29 item 1 holds. -/
def Engine.mode (e : Engine) : Mode :=
  if e.faulted then .faulted
  else if e.corrupted then .corrupted
  else if e.finalized then .finalized
  else .absorbing

/-- The value of every field after the power-on reset of an engine bound to `a` (R35, R260). -/
def Engine.por (a : Alg) : Engine where
  H          := initialHash a
  buf        := []
  blockIndex := 0
  lenLo      := 0
  lenHi      := 0
  finalized  := false
  corrupted  := false
  faulted    := false
  faultCause := 0
  faultCmd   := 0
  porDone    := true

/-- An engine bound to `a` whose power-on reset has not completed: it accepts no command (R263, D26).
Nothing reads its other fields before `Engine.por` rewrites them all (log entry 16). -/
def Engine.beforePor (a : Alg) : Engine := { Engine.por a with porDone := false }

end Sys2Proof.Machine
end

