-- ==== Sys2Proof/Machine/State.lean ====
section
/-! DEFINITION. The state of the whole CORE: its engines (60_exceptions.md R240) and its command and response ports, taken
as abstract channels (20_memory.md R58); what stops the machine; and the state after reset. -/

namespace Sys2Proof.Machine

/-- The status of a response (30_encoding.md R75). -/
inductive Status where
  | ok
  | errInputTooLong
  | faultPrecondition
  | faultIllegalCommand
deriving DecidableEq, Repr

/-- A response `(status, data)` (R75). -/
structure Response where
  status : Status
  data   : List Byte
deriving DecidableEq, Repr

/-- A response as it left the CORE: on the response port of one engine (R76). -/
structure Delivery where
  port     : Nat
  response : Response
deriving DecidableEq, Repr

/-- What the outside world can do to one engine: issue a command word (R70), or reset it at power-on
(70_reset_and_hazards.md R260). -/
inductive EventKind where
  | command (w : Cmd)
  | por
deriving DecidableEq, Repr

/-- An event on the port of one engine. -/
structure Event where
  port : Nat
  kind : EventKind
deriving DecidableEq, Repr

/-- The state of the CORE. -/
structure State where
  /-- The engine instances, numbered by the port each is reached by (R240). -/
  engines   : List Engine
  /-- The events the outside world offers, oldest first: any interleaving of any hosts is such a list (R59, R241; log
  entry 2). The model's own field. -/
  inbox     : List Event
  /-- The port of the event being handled. The model's own field (log entry 6). -/
  port      : Nat
  /-- The responses delivered so far, oldest first (R59, R76; log entry 3). The model's own field. -/
  responses : List Delivery
deriving DecidableEq, Repr

/-- What stops the machine. The spec's own faults do NOT stop it: they are next states in which the engine is halted
(60_exceptions.md R234; log entry 9). -/
inductive Fault where
  /-- Raised by a step, or a command, on a port that no engine of the CORE is reached by (R240). Safe: the CORE has no such
  port, so the hardware has no such behaviour (log entry 7). -/
  | noSuchEngine (port : Nat)
deriving DecidableEq, Repr

/-- What the model does not run. -/
inductive Refusal where
  /-- Raised by an arm of `exec` whose instruction has no meaning yet. Safe: it stops. No arm raises it. -/
  | notModelled (mnemonic : String)
deriving DecidableEq, Repr

/-- The CORE with the given engines, each after its power-on reset, and nothing offered yet (R35, R240, R260).
The argument is the open parameter `N_ENGINES` of 00_scope.md R6 and D2. -/
def State.por (algs : List Alg) : State where
  engines   := algs.map Engine.por
  inbox     := []
  port      := 0
  responses := []

/-- The CORE with the given engines, none of which has had its power-on reset (R263, D26). -/
def State.beforePor (algs : List Alg) : State :=
  { State.por algs with engines := algs.map Engine.beforePor }

/-- The machine right after reset, with the engines that `Config.engines` names (R35, R260; log entry 1). -/
def State.reset : State := State.por Config.engines

end Sys2Proof.Machine
end

