-- ==== Sys2Proof/Machine/Ops.lean ====
section
/-! DEFINITION. The shared operations: the block buffer (20_memory.md R50, R51), the digest bytes (R54), the ports
(30_encoding.md R75, R76), accepting a command (40_commands.md R100), fault entry (60_exceptions.md R234) and the one way out
of a fault, the power-on reset (R235, 70_reset_and_hazards.md R260). -/

namespace Sys2Proof.Machine

/-! ### The block buffer -/

/-- The byte of the buffer at an address. -/
def Memory.read : Memory → Nat → Byte
  | [],             _ => Memory.unlisted
  | (k, v) :: rest, a => if k = a then v else Memory.read rest a

/-- A byte with its address listed in front, unless it is what an unlisted address reads as. -/
def Memory.listed (a : Nat) (b : Byte) (rest : Memory) : Memory :=
  if b = Memory.unlisted then rest else (a, b) :: rest

/-- The buffer after a byte write; it keeps the canonical form for an address below 64. -/
def Memory.write : Memory → Nat → Byte → Memory
  | [],             a, b => Memory.listed a b []
  | (k, v) :: rest, a, b =>
    if a < k then Memory.listed a b ((k, v) :: rest)
    else if a = k then Memory.listed a b rest
    else (k, v) :: Memory.write rest a b

/-- `MemRead(addr, 1)`, for `addr + 1 <= 64` (R51). -/
def memRead1 (m : Memory) (addr : Fin 64) : Byte := m.read addr

/-- `MemRead(addr, 4)`, for `addr + 4 <= 64`: the byte at the lowest address is the most significant (R51). -/
def memRead4 (m : Memory) (addr : Fin 61) : Word :=
  wordOfBytes (m.read addr) (m.read (addr + 1)) (m.read (addr + 2)) (m.read (addr + 3))

/-- `MemWrite(addr, 1, v)`, for `addr + 1 <= 64` (R51). -/
def memWrite1 (m : Memory) (addr : Fin 64) (v : Byte) : Memory := m.write addr v

/-- `MemWrite(addr, 4, v)`, for `addr + 4 <= 64`: the most significant byte first (R51). -/
def memWrite4 (m : Memory) (addr : Fin 61) (v : Word) : Memory :=
  (((m.write addr (wordByte v 0)).write (addr + 1) (wordByte v 1)).write (addr + 2) (wordByte v 2)).write
    (addr + 3) (wordByte v 3)

/-- `for j in lo..hi-1: MemWrite(j, 1, 0x00)`, the addresses that exist (41_buffer_padding.md R145). -/
def zeroRange (m : Memory) (lo hi : Nat) : Memory :=
  (List.finRange 64).foldl (fun m j => if lo ≤ j.val ∧ j.val < hi then memWrite1 m j 0x00 else m) m

/-- The address of message word `t`, a multiple of 4 (R53, R56). -/
def wordAddr (t : Fin 16) : Fin 61 := ⟨4 * t.val, by omega⟩

/-- `M[t] = MemRead(4*t, 4)`, the message words of the block in the buffer (R53). -/
def messageWord (m : Memory) (t : Fin 16) : Word := memRead4 m (wordAddr t)

/-! ### The digest -/

/-- `Serialize(H)`: the words in ascending index order, each most significant byte first (R54). -/
def serialize (h : WorkingHash) : List Byte := h.words.flatMap wordBytes

/-! ### Responses and ports -/

/-- The 2-bit code of a status (R75). -/
def Status.code : Status → BitVec 2
  | .ok                  => 0
  | .errInputTooLong     => 1
  | .faultPrecondition   => 2
  | .faultIllegalCommand => 3

/-- `respond(OK, data)` (R76). -/
def respondOk (data : List Byte) : Response := ⟨.ok, data⟩

/-- `respond(ERR_INPUT_TOO_LONG, [])` (60_exceptions.md R231). -/
def respondTooLong : Response := ⟨.errInputTooLong, []⟩

/-- The end of a command's transition on the port being handled: the engine's new state is written and its one response
delivered (00_scope.md R10, R76). -/
def State.deliver (s : State) (e : Engine) (r : Response) : State :=
  { s with engines := s.engines.set s.port e, responses := s.responses ++ [⟨s.port, r⟩] }

/-- Whether an engine accepts a command: its power-on reset has completed (R263) and it is not halted (R100, R235). -/
def Engine.accepts (e : Engine) : Bool := e.porDone && !e.faulted

/-- One command on the engine of the port being handled, as one atomic transition (R10): what `f` makes of the engine and
the response it gives. An engine that accepts no command takes no step and answers nothing (R100; log entry 4). -/
def onEngine (f : Engine → Engine × Response) (s : State) : Host.Outcome State Fault Refusal :=
  match s.engines[s.port]? with
  | none   => .fault (.noSuchEngine s.port)
  | some e => if e.accepts then .next (s.deliver (f e).1 (f e).2) else .next s

/-! ### Faults -/

/-- The faults of R230, and the status each answers with. -/
inductive Cause where
  | precondition     -- `FAULT_PRECONDITION`, R232
  | illegalCommand   -- `FAULT_ILLEGAL_COMMAND`, R233
deriving DecidableEq, Repr

/-- The status a fault answers with (R230). -/
def Cause.status : Cause → Status
  | .precondition   => .faultPrecondition
  | .illegalCommand => .faultIllegalCommand

/-- Fault entry, `raise F(cmd)` (R234): the record is written, the response carries no data, nothing else changes. -/
def raiseFault (f : Cause) (cmd : Cmd) (e : Engine) : Engine × Response :=
  ({ e with faulted := true, faultCause := f.status.code, faultCmd := cmd }, ⟨f.status, []⟩)

/-- An illegal word faults the engine it was issued to (R100, R233). -/
def rejectWord (w : Cmd) (s : State) : Host.Outcome State Fault Refusal := onEngine (raiseFault .illegalCommand w) s

/-- The power-on reset of the engine on the port being handled (R260): every field at its reset value, no response.
It is the only return from a fault (R235). -/
def powerOnReset (s : State) : Host.Outcome State Fault Refusal :=
  match s.engines[s.port]? with
  | none   => .fault (.noSuchEngine s.port)
  | some e => .next { s with engines := s.engines.set s.port (Engine.por e.alg) }

/-! ### The command port -/

/-- The oldest event offered, and the CORE with that event taken: the command port now names the event's engine (R59). -/
def takeEvent (s : State) : Option (EventKind × State) :=
  match s.inbox with
  | []         => none
  | ev :: rest => some (ev.kind, { s with inbox := rest, port := ev.port })

/-- The CORE with one more command word offered before every other event, on the port handled last. -/
def State.offerFirst (s : State) (w : Cmd) : State := { s with inbox := ⟨s.port, .command w⟩ :: s.inbox }

end Sys2Proof.Machine
end

