-- ==== Sys2Proof/Machine/Control.lean ====
section
/-! DEFINITION. The reset command (40_commands.md R104). -/

namespace Sys2Proof.Machine

/-- The fields that R104 writes; the fault record keeps its values (10_state.md R35, 70_reset_and_hazards.md R261). -/
def reinitialise (e : Engine) : Engine :=
  { e with
    H := initialHash e.alg, buf := [], blockIndex := 0, lenLo := 0, lenHi := 0, finalized := false, corrupted := false }

/-- R104 on one engine. -/
def resetCommand (e : Engine) : Engine × Response := (reinitialise e, respondOk [])

/-- `RESET` (R104). -/
def execReset (s : State) : Host.Outcome State Fault Refusal := onEngine resetCommand s

end Sys2Proof.Machine
end

