-- ==== Sys2Proof/Syntax.lean ====
section
/-! DEFINITION. The commands of the CORE, one constructor per row of spec/opcode_table.json (30_encoding.md R72), and the
lines of the assembler that spell them (R79). -/

namespace Sys2Proof

/-- "CORE command set v1" (R1, R72). Only `INPUT` has an operand (R71). -/
inductive Instr where
  | input (b : Byte)
  | inputEmpty
  | result
  | reset
  | obits
  | obytes
  | bsize
deriving DecidableEq, Repr

/-- The mnemonics of R72 and R79. -/
inductive Mnemonic where
  | input
  | inputEmpty
  | result
  | reset
  | obits
  | obytes
  | bsize
deriving DecidableEq, Repr

/-- One line of assembler source, as written: a mnemonic and the operand given, if any (R79).
An ill-formed line is a line; `Line.check` of WellFormed refuses it. -/
structure Line where
  mnemonic : Mnemonic
  operand  : Option Nat
deriving DecidableEq, Repr

end Sys2Proof
end

