-- ==== Sys2Proof/WellFormed.lean ====
section
/-! DEFINITION. Which assembler lines spell a command (30_encoding.md R79), and with that which commands are well formed.
The operand of `Instr.input` is a byte by its type, so every `Instr` is well formed; an ill-formed term is a line. -/

namespace Sys2Proof

/-- Why a line spells no command (R79). -/
inductive LineError where
  | missingOperand      -- `INPUT` without an operand
  | unexpectedOperand   -- an operand on a command other than `INPUT`
  | operandOutOfRange   -- an operand outside 0..255
  | noSuchLine          -- text that is no line of the syntax at all
deriving DecidableEq, Repr

/-- Only `INPUT` takes an operand (R71). -/
def Mnemonic.takesOperand : Mnemonic → Bool
  | .input      => true
  | .inputEmpty => false
  | .result     => false
  | .reset      => false
  | .obits      => false
  | .obytes     => false
  | .bsize      => false

/-- The checks of R79, by name. -/
def Line.check (l : Line) : Option LineError :=
  match l.mnemonic.takesOperand, l.operand with
  | true,  none   => some .missingOperand
  | true,  some n => if n < 256 then none else some .operandOutOfRange
  | false, none   => none
  | false, some _ => some .unexpectedOperand

/-- A line that spells a command. -/
def Line.wf (l : Line) : Bool := l.check == none

/-- The line that spells a command (R79). -/
def Instr.toLine : Instr → Line
  | .input b    => ⟨.input, some b.toNat⟩
  | .inputEmpty => ⟨.inputEmpty, none⟩
  | .result     => ⟨.result, none⟩
  | .reset      => ⟨.reset, none⟩
  | .obits      => ⟨.obits, none⟩
  | .obytes     => ⟨.obytes, none⟩
  | .bsize      => ⟨.bsize, none⟩

/-- A command is well formed when its line is. -/
def Instr.wf (i : Instr) : Bool := i.toLine.wf

/-- Every command is well formed: the operand is a byte by its type. -/
theorem Instr.wf_eq_true (i : Instr) : i.wf = true := by
  cases i with
  | input b => simp [Instr.wf, Line.wf, Line.check, Instr.toLine, Mnemonic.takesOperand, b.isLt]
  | inputEmpty => rfl
  | result => rfl
  | reset => rfl
  | obits => rfl
  | obytes => rfl
  | bsize => rfl

end Sys2Proof
end

