-- ==== Sys2Proof/Decode.lean ====
section
/-! DEFINITION. Command words: the decoder, total on all 65536 words and refusing by name (40_commands.md R100,
30_encoding.md R70 to R74), and the encoder, written from the opcode map (R72). -/

namespace Sys2Proof

/-- Why a word is illegal (R74). -/
inductive Illegal where
  | opcode (op : Byte)                 -- `op` is 0x00 or in 0x08..0xFF
  | reservedOperand (op imm : Byte)    -- R73: a non-zero `imm8` on an opcode other than `INPUT`
deriving DecidableEq, Repr

/-- The field `op = cmd[15:8]` (R70). -/
def opField (w : Cmd) : Byte := w.extractLsb' 8 8

/-- The field `imm8 = cmd[7:0]` (R70, R71). -/
def immField (w : Cmd) : Byte := w.extractLsb' 0 8

/-- A command without an operand: its `imm8` is reserved and must be 0x00 (R73). -/
def bare (op imm : Byte) (i : Instr) : Except Illegal Instr :=
  if imm = 0x00 then .ok i else .error (.reservedOperand op imm)

/-- The decode step of R100, with the opcode map of R72. -/
def decode (w : Cmd) : Except Illegal Instr :=
  let op := opField w
  let imm := immField w
  match op.toNat with
  | 0x01 => .ok (.input imm)
  | 0x02 => bare op imm .inputEmpty
  | 0x03 => bare op imm .result
  | 0x04 => bare op imm .reset
  | 0x05 => bare op imm .obits
  | 0x06 => bare op imm .obytes
  | 0x07 => bare op imm .bsize
  | _    => .error (.opcode op)

/-- The opcode of each command (R72). -/
def opcode : Instr → Byte
  | .input _    => 0x01
  | .inputEmpty => 0x02
  | .result     => 0x03
  | .reset      => 0x04
  | .obits      => 0x05
  | .obytes     => 0x06
  | .bsize      => 0x07

/-- The operand byte of each command: the data byte of `INPUT`, reserved 0x00 for the others (R71, R73). -/
def operandByte : Instr → Byte
  | .input b    => b
  | .inputEmpty => 0x00
  | .result     => 0x00
  | .reset      => 0x00
  | .obits      => 0x00
  | .obytes     => 0x00
  | .bsize      => 0x00

/-- The command word of a command: `op` in bits 15:8, `imm8` in bits 7:0 (R70, R72). -/
def encode (i : Instr) : Cmd := opcode i ++ operandByte i

/-- The command that the decoder reads from a word given as the host numbers it: `nbits` bits of `w`, bit 0 the least
significant. A command is exactly one 16-bit word (R70, R78), so a longer one is refused and the bits above a shorter
one are 0. -/
def decodeTableWord (nbits w : Nat) : Option Instr :=
  if nbits ≤ 16 then (decode (BitVec.ofNat 16 (w % 2 ^ nbits))).toOption else none

end Sys2Proof
end

