-- ==== Sys2Proof/Machine/Mixing.lean ====
section
/-! DEFINITION. The stateless 32-bit mixing primitives (44_mixing.md R200 to R211).
R204's `xor`, `and` and `not` are `BitVec`'s own `^^^`, `&&&` and `~~~`. -/

namespace Sys2Proof.Machine

/-- R200: addition mod 2^32; the carry out of bit 31 is dropped. -/
def add32 (x y : Word) : Word := x + y

/-- R201: rotate left by `n` bits; a count of 32 or more acts as `n mod 32`. -/
def rotl32 (x : Word) (n : Nat) : Word := (x <<< (n % 32)) ||| (x >>> (32 - n % 32))

/-- R202: rotate right by `n` bits; a count of 32 or more acts as `n mod 32`. -/
def rotr32 (x : Word) (n : Nat) : Word := (x >>> (n % 32)) ||| (x <<< (32 - n % 32))

/-- R203: logical right shift, zeros from bit 31. -/
def shr32 (x : Word) (n : Nat) : Word := x >>> n

/-- R205. -/
def choice (x y z : Word) : Word := (x &&& y) ^^^ (~~~x &&& z)

/-- R206. -/
def majority (x y z : Word) : Word := (x &&& y) ^^^ (x &&& z) ^^^ (y &&& z)

/-- R207. -/
def parity (x y z : Word) : Word := x ^^^ y ^^^ z

/-- `σ0`, R208. -/
def smallSigma0 (x : Word) : Word := rotr32 x 7 ^^^ rotr32 x 18 ^^^ shr32 x 3

/-- `σ1`, R209. -/
def smallSigma1 (x : Word) : Word := rotr32 x 17 ^^^ rotr32 x 19 ^^^ shr32 x 10

/-- `Σ0`, R210. -/
def bigSigma0 (x : Word) : Word := rotr32 x 2 ^^^ rotr32 x 13 ^^^ rotr32 x 22

/-- `Σ1`, R211. -/
def bigSigma1 (x : Word) : Word := rotr32 x 6 ^^^ rotr32 x 11 ^^^ rotr32 x 25

/-- A message schedule grown word by word in ascending order: each new word is `next` of the words before it
(42_sha1.md R164, 43_sha256.md R183). -/
def growSchedule (next : List Word → Word) : Nat → List Word → List Word
  | 0,     W => W
  | n + 1, W => growSchedule next n (W ++ [next W])

/-- `W[i]`, for a schedule `W` and an index below its length. -/
def scheduleWord (W : List Word) (i : Nat) : Word := W.getD i 0

end Sys2Proof.Machine
end

