-- ==== Sys2Proof/Machine/Flags.lean ====
section
/-! DEFINITION. The flag computations: the length counter, whose carry out of 64 bits sets `corrupted`
(41_buffer_padding.md R142), and the checks of `corrupted` and `finalized` that guard a command (60_exceptions.md R237). -/

namespace Sys2Proof.Machine

/-- `IncrementLength()` (R142). -/
def incrementLength (e : Engine) : Engine :=
  let lo := add32 e.lenLo 8
  if lo = 0 then
    let hi := add32 e.lenHi 1
    if hi = 0 then { e with lenLo := lo, lenHi := hi, corrupted := true }
    else { e with lenLo := lo, lenHi := hi }
  else { e with lenLo := lo }

/-- The check of `corrupted` (R231): the engine answers `ERR_INPUT_TOO_LONG` and nothing changes. -/
def unlessCorrupted (f : Engine → Engine × Response) (e : Engine) : Engine × Response :=
  if e.corrupted then (e, respondTooLong) else f e

/-- The check of `finalized` (R232): the command that comes after `RESULT` with no `RESET` between them faults. -/
def unlessFinalized (cmd : Cmd) (f : Engine → Engine × Response) (e : Engine) : Engine × Response :=
  if e.finalized then raiseFault .precondition cmd e else f e

/-- The two checks in their order of priority (R237 items 3 and 4), as `INPUT` and `INPUT_EMPTY` make them. -/
def guardInput (cmd : Cmd) (f : Engine → Engine × Response) : Engine → Engine × Response :=
  unlessCorrupted (unlessFinalized cmd f)

end Sys2Proof.Machine
end

