-- ==== Sys2Proof/Machine/Sha1.lean ====
section
/-! DEFINITION. The SHA-1 compression engine (42_sha1.md R160 to R166). -/

namespace Sys2Proof.Machine

/-- R162: the round constant `K1(t)`. -/
def sha1K (t : Nat) : Word :=
  if t ≤ 19 then 0x5A827999 else if t ≤ 39 then 0x6ED9EBA1 else if t ≤ 59 then 0x8F1BBCDC else 0xCA62C1D6

/-- R163: the round function `f1(t, x, y, z)`. -/
def sha1F (t : Nat) (x y z : Word) : Word :=
  if t ≤ 19 then choice x y z
  else if t ≤ 39 then parity x y z
  else if t ≤ 59 then majority x y z
  else parity x y z

/-- R164: the schedule word that follows the words `W[0..t-1]`, for `t` in 16..79. -/
def sha1NextWord (W : List Word) : Word :=
  let t := W.length
  rotl32 (scheduleWord W (t - 3) ^^^ scheduleWord W (t - 8) ^^^ scheduleWord W (t - 14) ^^^ scheduleWord W (t - 16)) 1

/-- R164: `W[0..79]` from the message words `M[0..15]`. -/
def sha1Schedule (M : Fin 16 → Word) : List Word := growSchedule sha1NextWord 64 (List.ofFn M)

/-- The working variables of a SHA-1 compression, local to it (10_state.md R31). -/
structure Sha1Vars where
  (a b c d e : Word)
deriving DecidableEq, Repr

/-- R165: round `t` with the schedule `W`; every right-hand side is read before any variable is written. -/
def sha1Round (W : List Word) (v : Sha1Vars) (t : Nat) : Sha1Vars where
  a := add32 (add32 (add32 (add32 (rotl32 v.a 5) (sha1F t v.b v.c v.d)) v.e) (sha1K t)) (scheduleWord W t)
  b := v.a
  c := rotl32 v.b 30
  d := v.c
  e := v.d

/-- R166: the working variables as `H` gives them. -/
def sha1Start (h : Vector Word 5) : Sha1Vars := ⟨h[0], h[1], h[2], h[3], h[4]⟩

/-- R166: the working variables after the first `n` rounds. -/
def sha1Rounds (W : List Word) (v : Sha1Vars) (n : Nat) : Sha1Vars := (List.range n).foldl (sha1Round W) v

/-- R166: the compression of one block. -/
def sha1Compress (h : Vector Word 5) (M : Fin 16 → Word) : Vector Word 5 :=
  let v := sha1Rounds (sha1Schedule M) (sha1Start h) 80
  #v[add32 h[0] v.a, add32 h[1] v.b, add32 h[2] v.c, add32 h[3] v.d, add32 h[4] v.e]

end Sys2Proof.Machine
end

