-- ==== Sys2Proof/Machine/Sha256.lean ====
section
/-! DEFINITION. The SHA-256 compression engine (43_sha256.md R180 to R186). -/

namespace Sys2Proof.Machine

/-- R182: the round constants `K2[0..63]`, eight a row (supplied by the spec from general knowledge GK-3: log entry 12). -/
def sha256Constants : List Word :=
  [0x428a2f98, 0x71374491, 0xb5c0fbcf, 0xe9b5dba5, 0x3956c25b, 0x59f111f1, 0x923f82a4, 0xab1c5ed5] ++
  [0xd807aa98, 0x12835b01, 0x243185be, 0x550c7dc3, 0x72be5d74, 0x80deb1fe, 0x9bdc06a7, 0xc19bf174] ++
  [0xe49b69c1, 0xefbe4786, 0x0fc19dc6, 0x240ca1cc, 0x2de92c6f, 0x4a7484aa, 0x5cb0a9dc, 0x76f988da] ++
  [0x983e5152, 0xa831c66d, 0xb00327c8, 0xbf597fc7, 0xc6e00bf3, 0xd5a79147, 0x06ca6351, 0x14292967] ++
  [0x27b70a85, 0x2e1b2138, 0x4d2c6dfc, 0x53380d13, 0x650a7354, 0x766a0abb, 0x81c2c92e, 0x92722c85] ++
  [0xa2bfe8a1, 0xa81a664b, 0xc24b8b70, 0xc76c51a3, 0xd192e819, 0xd6990624, 0xf40e3585, 0x106aa070] ++
  [0x19a4c116, 0x1e376c08, 0x2748774c, 0x34b0bcb5, 0x391c0cb3, 0x4ed8aa4a, 0x5b9cca4f, 0x682e6ff3] ++
  [0x748f82ee, 0x78a5636f, 0x84c87814, 0x8cc70208, 0x90befffa, 0xa4506ceb, 0xbef9a3f7, 0xc67178f2]

/-- R185: `K2[t]`, the constant of round `t` in 0..63. -/
def sha256K (t : Nat) : Word := sha256Constants.getD t 0

/-- R183: the schedule word that follows the words `W[0..t-1]`, for `t` in 16..63. -/
def sha256NextWord (W : List Word) : Word :=
  let t := W.length
  add32 (add32 (add32 (smallSigma1 (scheduleWord W (t - 2))) (scheduleWord W (t - 7)))
    (smallSigma0 (scheduleWord W (t - 15)))) (scheduleWord W (t - 16))

/-- R183: `W[0..63]` from the message words `M[0..15]`. -/
def sha256Schedule (M : Fin 16 → Word) : List Word := growSchedule sha256NextWord 48 (List.ofFn M)

/-- The working variables of a SHA-256 compression, local to it (10_state.md R31). -/
structure Sha256Vars where
  (a b c d e f g h : Word)
deriving DecidableEq, Repr

/-- R184: `T1` of round `t`. -/
def sha256T1 (W : List Word) (v : Sha256Vars) (t : Nat) : Word :=
  add32 (add32 (add32 (add32 v.h (bigSigma1 v.e)) (choice v.e v.f v.g)) (sha256K t)) (scheduleWord W t)

/-- R184: `T2` of a round. -/
def sha256T2 (v : Sha256Vars) : Word := add32 (bigSigma0 v.a) (majority v.a v.b v.c)

/-- R184: round `t` with the schedule `W`; the eight variables are written at once. -/
def sha256Round (W : List Word) (v : Sha256Vars) (t : Nat) : Sha256Vars where
  a := add32 (sha256T1 W v t) (sha256T2 v)
  b := v.a
  c := v.b
  d := v.c
  e := add32 v.d (sha256T1 W v t)
  f := v.e
  g := v.f
  h := v.g

/-- R186: the working variables as `H` gives them. -/
def sha256Start (h : Vector Word 8) : Sha256Vars := ⟨h[0], h[1], h[2], h[3], h[4], h[5], h[6], h[7]⟩

/-- R186: the working variables after the first `n` rounds. -/
def sha256Rounds (W : List Word) (v : Sha256Vars) (n : Nat) : Sha256Vars := (List.range n).foldl (sha256Round W) v

/-- R186: the compression of one block. -/
def sha256Compress (h : Vector Word 8) (M : Fin 16 → Word) : Vector Word 8 :=
  let v := sha256Rounds (sha256Schedule M) (sha256Start h) 64
  #v[add32 h[0] v.a, add32 h[1] v.b, add32 h[2] v.c, add32 h[3] v.d,
     add32 h[4] v.e, add32 h[5] v.f, add32 h[6] v.g, add32 h[7] v.h]

end Sys2Proof.Machine
end

