-- ==== Sys2Proof/Machine/Padding.lean ====
section
/-! DEFINITION. The block-buffer and padding controller (41_buffer_padding.md R140 to R147). -/

namespace Sys2Proof.Machine

/-- The compression function of the engine's algorithm (R141). -/
def compressHash (h : WorkingHash) (M : Fin 16 → Word) : WorkingHash :=
  match h with
  | .sha1 v   => .sha1 (sha1Compress v M)
  | .sha256 v => .sha256 (sha256Compress v M)

/-- `Compress()`: it reads `buf` and writes all of `H`, and nothing else (R141). -/
def compress (e : Engine) : Engine := { e with H := compressHash e.H (messageWord e.buf) }

/-- `AbsorbByte(b)` (R140). The index 64 exists only here (10_state.md R23): a full buffer is compressed at once, also when
this byte has set `corrupted` (D10), and the index becomes 0. -/
def absorbByte (b : Byte) (e : Engine) : Engine :=
  let e := incrementLength { e with buf := memWrite1 e.buf e.blockIndex b }
  if h : e.blockIndex.val + 1 < 64 then { e with blockIndex := ⟨e.blockIndex.val + 1, h⟩ }
  else { compress e with blockIndex := 0 }

/-- `PadMarker()`: the byte 0x80 after the last message byte (R144). The index that it advances is `markerEnd`. -/
def padMarker (e : Engine) : Engine := { e with buf := memWrite1 e.buf e.blockIndex 0x80 }

/-- The position after the 0x80 marker, 1..64 (R144, R145). -/
def markerEnd (e : Engine) : Nat := e.blockIndex.val + 1

/-- `ZeroFill()` with `k` the position after the marker (R145, 90_conflicts.md C2). -/
def zeroFill (k : Nat) (e : Engine) : Engine :=
  if k > 56 then
    let full := compress { e with buf := zeroRange e.buf k 64 }
    { full with buf := zeroRange full.buf 0 56, blockIndex := 56 }
  else { e with buf := zeroRange e.buf k 56, blockIndex := 56 }

/-- `WriteFooter()`: the bit length, high half first (R146). -/
def writeFooter (e : Engine) : Engine := { e with buf := memWrite4 (memWrite4 e.buf 56 e.lenHi) 60 e.lenLo }

/-- `FinalCompress()` (R147). -/
def finalCompress (e : Engine) : Engine :=
  { compress e with buf := [], lenLo := 0, lenHi := 0, blockIndex := 0, finalized := true }

/-- `Finalize()` (R143). -/
def finalize (e : Engine) : Engine := finalCompress (writeFooter (zeroFill (markerEnd e) (padMarker e)))

end Sys2Proof.Machine
end

