-- ==== Sys2Proof/Machine/Input.lean ====
section
/-! DEFINITION. The input commands (40_commands.md R101, R102). -/

namespace Sys2Proof.Machine

/-- R101 on one engine. -/
def inputCommand (b : Byte) : Engine → Engine × Response :=
  guardInput (encode (.input b)) (fun e => (absorbByte b e, respondOk []))

/-- `INPUT b` (R101). -/
def execInput (b : Byte) (s : State) : Host.Outcome State Fault Refusal := onEngine (inputCommand b) s

/-- R102 on one engine. -/
def inputEmptyCommand : Engine → Engine × Response :=
  guardInput (encode .inputEmpty) (fun e => (e, respondOk []))

/-- `INPUT_EMPTY` (R102). -/
def execInputEmpty (s : State) : Host.Outcome State Fault Refusal := onEngine inputEmptyCommand s

end Sys2Proof.Machine
end

