-- ==== Sys2Proof/Machine/Query.lean ====
section
/-! DEFINITION. The queries (40_commands.md R105 to R107). They read the constants of 10_state.md R30 and write nothing. -/

namespace Sys2Proof.Machine

/-- A query: the engine is as it was, and the response is a 16-bit constant of its algorithm (30_encoding.md R77). -/
def queryCommand (constant : Alg → BitVec 16) (e : Engine) : Engine × Response :=
  (e, respondOk (halfBytes (constant e.alg)))

/-- `OBITS` (R105). -/
def execObits (s : State) : Host.Outcome State Fault Refusal := onEngine (queryCommand outputBits) s

/-- `OBYTES` (R106). -/
def execObytes (s : State) : Host.Outcome State Fault Refusal := onEngine (queryCommand outputBytes) s

/-- `BSIZE` (R107). -/
def execBsize (s : State) : Host.Outcome State Fault Refusal := onEngine (queryCommand blockSize) s

end Sys2Proof.Machine
end

