-- ==== Sys2Proof/Machine/Result.lean ====
section
/-! DEFINITION. The result command (40_commands.md R103). -/

namespace Sys2Proof.Machine

/-- The engine with its message finalized: `if not finalized: Finalize()` (R103). -/
def ensureFinalized (e : Engine) : Engine := if e.finalized then e else finalize e

/-- R103 on one engine. -/
def resultCommand : Engine → Engine × Response :=
  unlessCorrupted (fun e => (ensureFinalized e, respondOk (serialize (ensureFinalized e).H)))

/-- `RESULT` (R103). -/
def execResult (s : State) : Host.Outcome State Fault Refusal := onEngine resultCommand s

end Sys2Proof.Machine
end

