-- ==== Sys2Proof/Machine/Dispatch.lean ====
section
/-! DEFINITION. The case of 40_commands.md R100: one arm per command. -/

namespace Sys2Proof.Machine

def exec (i : Instr) (s : State) : Host.Outcome State Fault Refusal :=
  match i with
  | .input b => Sys2Proof.Machine.execInput b s
  | .inputEmpty => Sys2Proof.Machine.execInputEmpty s
  | .result => Sys2Proof.Machine.execResult s
  | .reset => Sys2Proof.Machine.execReset s
  | .obits => Sys2Proof.Machine.execObits s
  | .obytes => Sys2Proof.Machine.execObytes s
  | .bsize => Sys2Proof.Machine.execBsize s

end Sys2Proof.Machine
end

