-- ==== Sys2Proof/Machine/Step.lean ====
section
/-! DEFINITION. One step of the CORE: the oldest event of the outside world, handled whole (00_scope.md R10,
40_commands.md R100). -/

namespace Sys2Proof.Machine

/-- One event. With nothing offered the CORE waits: it has nothing to do of its own (60_exceptions.md R238; log entry 5).
An engine that is halted accepts no word, legal or not, before anything else is looked at (R237 item 1): `exec` and
`rejectWord` both go through `onEngine`. -/
def step (s : State) : Host.Outcome State Fault Refusal :=
  match takeEvent s with
  | none                 => .next s
  | some (.por, s)       => powerOnReset s
  | some (.command w, s) =>
    match decode w with
    | .ok i    => exec i s
    | .error _ => rejectWord w s

/-- `s` with a command word offered before every other event, on the port that `s.port` names, so that the next step runs
it (log entry 5). The word is numbered as spec/opcode_table.json numbers it; a command is one 16-bit word (30_encoding.md
R70), so the bits above are not there. -/
def State.withFetchWord (s : State) (nbits w : Nat) : State := s.offerFirst (BitVec.ofNat 16 (w % 2 ^ nbits))

end Sys2Proof.Machine
end

