-- ==== Sys2Proof/Machine/HostSide.lean ====
section
/-! DEFINITION. What the host does around the command port: assembler lines (30_encoding.md R79), the pseudo-instruction
`INPUTS` (R80), the helpers `input_str` and `result_str` (R81) and `HEX` (00_scope.md R11). None of it is hardware (R5): no
step uses this file. Text is a list of characters. -/

namespace Sys2Proof.Machine

/-! ### The assembler (R79) -/

/-- The spelling of each mnemonic. -/
def mnemonicText : Mnemonic → List Char
  | .input      => ['I', 'N', 'P', 'U', 'T']
  | .inputEmpty => ['I', 'N', 'P', 'U', 'T', '_', 'E', 'M', 'P', 'T', 'Y']
  | .result     => ['R', 'E', 'S', 'U', 'L', 'T']
  | .reset      => ['R', 'E', 'S', 'E', 'T']
  | .obits      => ['O', 'B', 'I', 'T', 'S']
  | .obytes     => ['O', 'B', 'Y', 'T', 'E', 'S']
  | .bsize      => ['B', 'S', 'I', 'Z', 'E']

/-- The mnemonic that a word of the source spells, if any. -/
def mnemonicOf (cs : List Char) : Option Mnemonic :=
  [Mnemonic.input, .inputEmpty, .result, .reset, .obits, .obytes, .bsize].find? (fun m => mnemonicText m == cs)

/-- The value of a hexadecimal digit, in either case (log entry 15). -/
def hexDigit (c : Char) : Option Nat :=
  if '0' ≤ c ∧ c ≤ '9' then some (c.toNat - 48)
  else if 'a' ≤ c ∧ c ≤ 'f' then some (c.toNat - 87)
  else if 'A' ≤ c ∧ c ≤ 'F' then some (c.toNat - 55)
  else none

/-- The value of a decimal digit. -/
def decimalDigit (c : Char) : Option Nat := if '0' ≤ c ∧ c ≤ '9' then some (c.toNat - 48) else none

/-- The value of a string of decimal digits after the value `n` of the digits before it. -/
def decimalFrom : Nat → List Char → Option Nat
  | n, []      => some n
  | n, c :: cs => (decimalDigit c).bind (fun d => decimalFrom (10 * n + d) cs)

/-- An operand as R79 writes it: `0xHH`, or a decimal number. Its range is checked by `Line.check`. -/
def operandText : List Char → Option Nat
  | ['0', 'x', h, l] => (hexDigit h).bind (fun a => (hexDigit l).map (fun b => 16 * a + b))
  | []               => none
  | c :: cs          => decimalFrom 0 (c :: cs)

/-- The words of a line: what stands before a `;`, cut at spaces and tabs (log entry 15). -/
def lineWords (cs : List Char) : List (List Char) :=
  ((cs.takeWhile (· ≠ ';')).foldr
    (fun c ws => if c = ' ' ∨ c = '\t' then [] :: ws else
      match ws with
      | []     => [[c]]
      | w :: r => (c :: w) :: r)
    [[]]).filter (· ≠ [])

/-- A line of text as a line of the syntax; a line without a word holds no command (log entry 15). -/
def readLine (cs : List Char) : Except LineError (Option Line) :=
  match lineWords cs with
  | []     => .ok none
  | [m]    =>
    match mnemonicOf m with
    | some m => .ok (some ⟨m, none⟩)
    | none   => .error .noSuchLine
  | [m, x] =>
    match mnemonicOf m, operandText x with
    | some m, some n => .ok (some ⟨m, some n⟩)
    | _, _           => .error .noSuchLine
  | _      => .error .noSuchLine

/-- The command of a well-formed line. -/
def lineInstr (l : Line) : Instr :=
  match l.mnemonic with
  | .input      => .input (BitVec.ofNat 8 (l.operand.getD 0))
  | .inputEmpty => .inputEmpty
  | .result     => .result
  | .reset      => .reset
  | .obits      => .obits
  | .obytes     => .obytes
  | .bsize      => .bsize

/-- The command that a line spells, or why it spells none: the assembler refuses it (R79). -/
def assembleLine (l : Line) : Except LineError Instr :=
  match l.check with
  | some why => .error why
  | none     => .ok (lineInstr l)

/-- The command stream of a program, a sequence of lines (R79). -/
def assemble : List (List Char) → Except LineError (List Instr)
  | []         => .ok []
  | cs :: rest => do
    let line ← readLine cs
    let here ← match line with
      | none   => .ok []
      | some l => (assembleLine l).map (fun i => [i])
    let more ← assemble rest
    pure (here ++ more)

/-! ### Pseudo-instructions and helpers (R80, R81) -/

/-- `INPUTS <b0, ..., bn-1>`, the source's `input(bytes)` (R80). -/
def inputs : List Byte → List Instr
  | []      => [.inputEmpty]
  | b :: bs => (b :: bs).map .input

/-- `UTF8(text)` (R11). -/
def utf8 (text : List Char) : List Byte := text.flatMap (fun c => (String.utf8EncodeChar c).map UInt8.toBitVec)

/-- `input_str(text)` (R81). -/
def inputStr (text : List Char) : List Instr := inputs (utf8 text)

/-- A hexadecimal digit in lower case, for a value below 16. -/
def hexChar (n : Nat) : Char := Char.ofNat (if n < 10 then 48 + n else 87 + n)

/-- `HEX(bytes)`: two lower-case digits a byte, high nibble first (R11). -/
def hex (bytes : List Byte) : List Char := bytes.flatMap (fun b => [hexChar (b.toNat / 16), hexChar (b.toNat % 16)])

end Sys2Proof.Machine
end

