-- ==== Sys2Proof/Machine/Message.lean ====
section
/-! DEFINITION. The digest of a whole message, written on the message and not on the engine (20_memory.md R55,
41_buffer_padding.md R143 to R148): what the streaming engine is held against. No step uses this file. -/

namespace Sys2Proof.Machine

/-- The bytes of one value of the length footer: high half first, big-endian (R146). -/
def footerBytes (bits : BitVec 64) : List Byte := wordBytes (bits.extractLsb' 32 32) ++ wordBytes (bits.extractLsb' 0 32)

/-- The number of zero bytes between the 0x80 marker and the footer of a message of `n` bytes (R145, R148): the one-block
case is `n mod 64 <= 55`. -/
def zeroCount (n : Nat) : Nat := if n % 64 ≤ 55 then 55 - n % 64 else 119 - n % 64

/-- The padded message (R143 to R146). -/
def paddedMessage (msg : List Byte) : List Byte :=
  msg ++ 0x80 :: (List.replicate (zeroCount msg.length) 0x00 ++ footerBytes (BitVec.ofNat 64 (8 * msg.length)))

/-- The message words of the first block of a byte sequence (R53, R55). -/
def blockWord (bytes : List Byte) (t : Fin 16) : Word :=
  wordOfBytes (bytes.getD (4 * t.val) 0) (bytes.getD (4 * t.val + 1) 0) (bytes.getD (4 * t.val + 2) 0)
    (bytes.getD (4 * t.val + 3) 0)

/-- The working hash after the first `n` blocks of a byte sequence (R55, R141). -/
def hashBlocks : Nat → WorkingHash → List Byte → WorkingHash
  | 0,     h, _     => h
  | n + 1, h, bytes => hashBlocks n (compressHash h (blockWord bytes)) (bytes.drop 64)

/-- The digest of a message (00_scope.md R12 Digest, 20_memory.md R54). -/
def messageDigest (a : Alg) (msg : List Byte) : List Byte :=
  serialize (hashBlocks ((paddedMessage msg).length / 64) (initialHash a) (paddedMessage msg))

end Sys2Proof.Machine
end

