-- ==== Sys2Proof/Safety.lean ====
section
/-! DEFINITION. The terms that claims about the CORE are stated in: the invariants of 10_state.md R29, when a command is
accepted (40_commands.md R100), when a run has gone wrong (60_exceptions.md R234), and what an engine that holds a message
looks like (20_memory.md R55). -/

namespace Sys2Proof.Machine

/-- The engine on the port being handled is `e`, and it accepts commands: its power-on reset is done and it is not halted
(40_commands.md R100, 70_reset_and_hazards.md R263). -/
def State.serves (s : State) (e : Engine) : Prop :=
  s.engines[s.port]? = some e ∧ e.porDone = true ∧ e.faulted = false

/-- The invariants of one engine between commands: R29 items 1 and 3 to 6 (item 2 is the type of `blockIndex`), of an engine
whose power-on reset is done; and the canonical form of the buffer. -/
structure Engine.Inv (e : Engine) : Prop where
  bufWf         : e.buf.wf
  exclusive     : e.porDone = true → ¬ (e.finalized = true ∧ e.corrupted = true)
  lenMultiple   : e.porDone = true → e.lenLo.toNat % 8 = 0
  absorbing     : e.porDone = true → e.mode = .absorbing → e.blockIndex.val = (e.bitLength.toNat / 8) % 64
  finalizedZero : e.porDone = true → e.mode = .finalized →
    e.blockIndex = 0 ∧ e.lenLo = 0 ∧ e.lenHi = 0 ∧ ∀ a < 64, e.buf.read a = 0
  corruptedZero : e.porDone = true → e.mode = .corrupted → e.blockIndex = 0 ∧ e.lenLo = 0 ∧ e.lenHi = 0

/-- Every engine of the CORE meets its invariants. -/
def State.Inv (s : State) : Prop := ∀ e ∈ s.engines, e.Inv

/-- Every event offered is for an engine that the CORE has (60_exceptions.md R240). -/
def State.portsExist (s : State) : Prop := ∀ ev ∈ s.inbox, ev.port < s.engines.length

/-- The CORE after a command that left the engine on the port being handled as `e` and answered `r` (30_encoding.md R76):
nothing else is different. -/
def State.answered (s : State) (e : Engine) (r : Response) : State :=
  { s with engines := s.engines.set s.port e, responses := s.responses ++ [⟨s.port, r⟩] }

/-- The words that 30_encoding.md R74 lists as illegal: opcode 0x00, an opcode in 0x08..0xFF, or an opcode other than
`INPUT` with a non-zero `imm8` (R73). -/
abbrev illegalWord (w : Cmd) : Prop :=
  w.toNat / 256 = 0 ∨ 8 ≤ w.toNat / 256 ∨ (w.toNat / 256 ≠ 1 ∧ w.toNat % 256 ≠ 0)

/-- The 16 big-endian message words of a block whose byte at address `a` is `byte a` (20_memory.md R53). -/
def wordsOf (byte : Nat → Byte) (t : Fin 16) : Word :=
  wordOfBytes (byte (4 * t.val)) (byte (4 * t.val + 1)) (byte (4 * t.val + 2)) (byte (4 * t.val + 3))

/-- The byte at address `a`, 56..63, of the length footer: `bit_length` most significant byte first
(41_buffer_padding.md R146). -/
def footerByte (bits : BitVec 64) (a : Nat) : Byte := bits.extractLsb' (8 * (63 - a)) 8

/-- A run that reaches such a state has gone wrong (60_exceptions.md R234): an engine is halted. -/
def State.goneWrong (s : State) : Prop := ∃ e ∈ s.engines, e.porDone = true ∧ e.faulted = true

/-- The engine has absorbed exactly the message `msg` since its last reset (20_memory.md R55, 10_state.md R22 to R24). -/
structure Engine.Holds (e : Engine) (msg : List Byte) : Prop where
  hash       : e.H = hashBlocks (msg.length / 64) (initialHash e.alg) msg
  bytes      : ∀ j < msg.length % 64, e.buf.read j = msg.getD (64 * (msg.length / 64) + j) 0
  index      : e.blockIndex.val = msg.length % 64
  bits       : e.bitLength = BitVec.ofNat 64 (8 * msg.length)
  open_      : e.finalized = false ∧ e.corrupted = false

/-- Two engines that differ at most in the stale bytes of the buffer, those at and above `block_index`
(41_buffer_padding.md R149). -/
structure Engine.sameButStale (e f : Engine) : Prop where
  rest  : f = { e with buf := f.buf }
  bytes : ∀ j < e.blockIndex.val, f.buf.read j = e.buf.read j

end Sys2Proof.Machine
end

