-- ==== Sys2Proof/Certificates/Slice0/Obligations.lean ====
section
/-! DEFINITION. The statements for the provers. Each docstring names the rules of spec/ that its statement formalises. -/

section Slice0
open Sys2Proof Sys2Proof.Machine

/-! ### Encoding -/

/-- 30_encoding.md R70 and R72, vectors T-ENC-1: words written out bit by bit (opcode in bits 15:8, operand in bits 7:0)
decode to the commands they stand for, and four illegal words are refused. -/
def Obligations.WordsWrittenOutDecode : Prop :=
  decode 0b0000000101100001 = .ok (.input 0b01100001) ∧
  decode 0b0000001000000000 = .ok .inputEmpty ∧
  decode 0b0000001100000000 = .ok .result ∧
  decode 0b0000010000000000 = .ok .reset ∧
  decode 0b0000010100000000 = .ok .obits ∧
  decode 0b0000011000000000 = .ok .obytes ∧
  decode 0b0000011100000000 = .ok .bsize ∧
  decode 0b0000000000000000 = .error (.opcode 0x00) ∧
  decode 0b0000100000000000 = .error (.opcode 0x08) ∧
  decode 0b0000001100000001 = .error (.reservedOperand 0x03 0x01) ∧
  decode 0b0000001010000000 = .error (.reservedOperand 0x02 0x80)

/-- 30_encoding.md R70, R72: every well-formed command is read back from its word, with every operand, and every word that
decodes is the word of what it decodes to. -/
def Obligations.DecodeAndEncodeAgree : Prop :=
  (∀ i : Instr, i.wf = true → decode (encode i) = .ok i) ∧
  (∀ (w : Cmd) (i : Instr), decode w = .ok i → encode i = w)

/-- 30_encoding.md R73: the words that do not decode are exactly the illegal words of R74's list. -/
def Obligations.IllegalWordsAreExactlyTheListed : Prop :=
  ∀ w : Cmd, (∃ why, decode w = .error why) ↔ illegalWord w

/-- 30_encoding.md R79: a command's line spells it, the only line that does, and the assembler refuses exactly a missing
operand on `INPUT`, an operand above 255, and an operand on any other command. -/
def Obligations.AssemblerSpellsEveryCommandOnce : Prop :=
  (∀ i : Instr, assembleLine i.toLine = .ok i) ∧
  (∀ (l : Line) (i : Instr), assembleLine l = .ok i → i.toLine = l) ∧
  (∀ l : Line, (∃ why, assembleLine l = .error why) ↔
    (l.mnemonic = .input ∧ ∀ n, l.operand = some n → 256 ≤ n) ∨ (l.mnemonic ≠ .input ∧ l.operand ≠ none))

/-- 30_encoding.md R80: however a message is cut into non-empty chunks, its `INPUTS` expand to the same commands, and the
empty call is `INPUT_EMPTY`. -/
def Obligations.ChunkingMakesNoDifference : Prop :=
  inputs [] = [.inputEmpty] ∧
  ∀ chunks : List (List Byte), chunks ≠ [] → (∀ c ∈ chunks, c ≠ []) → inputs chunks.flatten = chunks.flatMap inputs

/-! ### Steps, ports, acceptance -/

/-- 40_commands.md R100: when the oldest event is a word that decodes to `i`, the step is `exec i` on the CORE with that
event taken and the command port naming its engine. The event list and the port are the model's (log entries 2 and 6). -/
def Obligations.StepRunsTheDecodedCommand : Prop :=
  ∀ (s : State) (p : Nat) (w : Cmd) (rest : List Event) (i : Instr),
    s.inbox = ⟨p, .command w⟩ :: rest → decode w = .ok i → step s = exec i { s with inbox := rest, port := p }

/-- 40_commands.md R100, 10_state.md R27, 70_reset_and_hazards.md R263: an engine that is halted, or whose power-on reset has
not completed, accepts no word, legal or illegal, and no command: it takes no step and answers nothing. That the offer then
lapses is the model's choice (log entry 4). -/
def Obligations.UnacceptedCommandChangesNothing : Prop :=
  ∀ (s : State) (e : Engine), (e.faulted = true ∨ e.porDone = false) →
    (∀ i : Instr, s.engines[s.port]? = some e → exec i s = .next s) ∧
    (∀ (p : Nat) (w : Cmd) (rest : List Event), s.inbox = ⟨p, .command w⟩ :: rest → s.engines[p]? = some e →
      step s = .next { s with inbox := rest, port := p })

/-- 70_reset_and_hazards.md R265: every accepted command completes. More is the model's: whatever the hosts offer on ports
that exist, a step gives a next state, and the ports still exist. A step with nothing offered waits (log entry 5); an offer to
an engine that is halted or not yet reset, for which 40_commands.md R100 says "no step", lapses in a step (log entry 4); a fault
of the spec is a next state with its engine halted (log entry 9). -/
def Obligations.EveryStepCompletes : Prop :=
  ∀ s : State, s.portsExist → ∃ t, step s = .next t ∧ t.portsExist

/-- Log entry 7 (the model's choice): `exec` stops exactly when the command port names no engine of the CORE. -/
def Obligations.OnlyAMissingEngineStopsACommand : Prop :=
  ∀ (i : Instr) (s : State), (¬ ∃ t, exec i s = .next t) ↔ s.engines.length ≤ s.port

/-- 20_memory.md R59, 30_encoding.md R76: a step delivers exactly one response, behind the earlier ones and on the port of
the command, when an engine accepts a command; otherwise it delivers none. That responses are kept in a list is the model's (log entry 3). -/
def Obligations.OneResponsePerAcceptedCommand : Prop :=
  ∀ s t : State, step s = .next t →
    (∃ p w rest e r, s.inbox = ⟨p, .command w⟩ :: rest ∧ s.engines[p]? = some e ∧ e.porDone = true ∧ e.faulted = false ∧
      t.inbox = rest ∧ t.responses = s.responses ++ [⟨p, r⟩]) ∨
    (t.responses = s.responses ∧ ∀ p w rest e, s.inbox = ⟨p, .command w⟩ :: rest → s.engines[p]? = some e →
      e.porDone = false ∨ e.faulted = true)

/-- 30_encoding.md R77: the data of a response, by command and status. -/
def Obligations.ResponseDataByCommandAndStatus : Prop :=
  ∀ (i : Instr) (s : State) (e : Engine), s.serves e → ∃ e' r, exec i s = .next (s.answered e' r) ∧
    (r.status ≠ .ok → r.data = []) ∧
    (r.status = .ok → match i with
      | .input _    => r.data = []
      | .inputEmpty => r.data = []
      | .reset      => r.data = []
      | .result     => r.data = serialize e'.H ∧ r.data.length = (outputBytes e.alg).toNat
      | .obits      => r.data.length = 2 ∧ r.data.foldl (fun n b => 256 * n + b.toNat) 0 = (outputBits e.alg).toNat
      | .obytes     => r.data.length = 2 ∧ r.data.foldl (fun n b => 256 * n + b.toNat) 0 = (outputBytes e.alg).toNat
      | .bsize      => r.data.length = 2 ∧ r.data.foldl (fun n b => 256 * n + b.toNat) 0 = (blockSize e.alg).toNat)

/-- 60_exceptions.md R237: exactly one outcome applies to an offered word, in this order: halted, illegal, corrupted,
finalized, normal. That an offer to a halted engine lapses is the model's choice (log entry 4). -/
def Obligations.OutcomeByPriority : Prop :=
  ∀ (s : State) (p : Nat) (w : Cmd) (rest : List Event) (e : Engine),
    s.inbox = ⟨p, .command w⟩ :: rest → s.engines[p]? = some e → e.porDone = true →
    ∃ t, step s = .next t ∧
      (e.faulted = true → t = { s with inbox := rest, port := p }) ∧
      (e.faulted = false → ∃ data, t.responses = s.responses ++ [⟨p, ⟨
        if illegalWord w then .faultIllegalCommand
        else if e.corrupted = true ∧ w.toNat / 256 ≤ 3 then .errInputTooLong
        else if e.finalized = true ∧ w.toNat / 256 ≤ 2 then .faultPrecondition
        else .ok, data⟩⟩])

/-! ### Reset -/

/-- 10_state.md R35: the value of every field after a power-on reset, and after an accepted `RESET`, which leaves the fault
record alone. The spec supplies the two initial hash values from general knowledge (log entry 12). -/
def Obligations.ResetValues : Prop :=
  initialHash .sha1 = .sha1 #v[0x67452301, 0xEFCDAB89, 0x98BADCFE, 0x10325476, 0xC3D2E1F0] ∧
  initialHash .sha256 = .sha256 #v[0x6A09E667, 0xBB67AE85, 0x3C6EF372, 0xA54FF53A,
                                   0x510E527F, 0x9B05688C, 0x1F83D9AB, 0x5BE0CD19] ∧
  (∀ (s : State) (p : Nat) (rest : List Event) (e : Engine), s.inbox = ⟨p, .por⟩ :: rest → s.engines[p]? = some e →
    ∃ t e', step s = .next t ∧ t.engines[p]? = some e' ∧
      e'.H = initialHash e.alg ∧ (∀ a < 64, e'.buf.read a = 0x00) ∧ e'.blockIndex = 0 ∧ e'.lenLo = 0 ∧ e'.lenHi = 0 ∧
      e'.finalized = false ∧ e'.corrupted = false ∧ e'.faulted = false ∧ e'.faultCause = 0 ∧ e'.faultCmd = 0 ∧
      e'.alg = e.alg) ∧
  (∀ (s : State) (e : Engine), s.serves e → ∃ e', exec .reset s = .next (s.answered e' ⟨.ok, []⟩) ∧
      e'.H = initialHash e.alg ∧ (∀ a < 64, e'.buf.read a = 0x00) ∧ e'.blockIndex = 0 ∧ e'.lenLo = 0 ∧ e'.lenHi = 0 ∧
      e'.finalized = false ∧ e'.corrupted = false ∧ e'.faulted = false ∧ e'.faultCause = e.faultCause ∧
      e'.faultCmd = e.faultCmd ∧ e'.alg = e.alg)

/-- 70_reset_and_hazards.md R260: a power-on reset gives no response, completes, leaves the engine in mode `ABSORBING`
whatever its mode was, and touches no other engine. -/
def Obligations.PowerOnResetIsSilentAndLocal : Prop :=
  ∀ (s : State) (p : Nat) (rest : List Event) (e : Engine), s.inbox = ⟨p, .por⟩ :: rest → s.engines[p]? = some e →
    ∃ e', step s = .next { s with engines := s.engines.set p e', inbox := rest, port := p } ∧
      e'.mode = .absorbing ∧ e'.porDone = true

/-- 40_commands.md R104: `RESET` completes in every mode but `FAULTED`, where it is not accepted, with exactly this state;
on an engine fresh from reset it changes nothing but the response. That the offer to a faulted engine lapses is the model's
choice (log entry 4). -/
def Obligations.ResetCommandReinitialises : Prop :=
  (∀ (s : State) (e : Engine), s.serves e → exec .reset s = .next (s.answered
    { e with H := initialHash e.alg, buf := [], blockIndex := 0, lenLo := 0, lenHi := 0, finalized := false,
             corrupted := false } ⟨.ok, []⟩)) ∧
  (∀ (s : State) (e : Engine), s.engines[s.port]? = some e → e.mode = .faulted → exec .reset s = .next s) ∧
  (∀ (s : State) (a : Alg), s.serves (Engine.por a) → exec .reset s =
    .next { s with responses := s.responses ++ [⟨s.port, ⟨.ok, []⟩⟩] })

/-- 70_reset_and_hazards.md R261: `RESET` and a power-on reset give the same values, apart from the fault record, which the
power-on reset clears and `RESET` leaves alone. The spec marks the rule as derived. -/
def Obligations.ResetEqualsPowerOnReset : Prop :=
  ∀ (s : State) (e : Engine), s.serves e → exec .reset s = .next (s.answered
    { Engine.por e.alg with faultCause := e.faultCause, faultCmd := e.faultCmd } ⟨.ok, []⟩)

/-- 10_state.md R29, R35, 70_reset_and_hazards.md R262: the CORE right after reset, with any list of engines, meets the
invariants, offers only ports that exist, and has gone wrong nowhere; every engine is in mode `ABSORBING`. -/
def Obligations.ResetMeetsTheInvariants : Prop :=
  (∀ algs : List Alg, (State.por algs).Inv ∧ (State.por algs).portsExist ∧ ¬ (State.por algs).goneWrong ∧
    (State.por algs).engines.map Engine.alg = algs ∧ ∀ e ∈ (State.por algs).engines, e.mode = .absorbing) ∧
  State.reset.Inv

/-! ### Invariants and whole-machine rules -/

/-- 10_state.md R29: from every state whose engines meet the invariants, a step gives such a state. -/
def Obligations.StepKeepsTheInvariants : Prop :=
  ∀ s t : State, s.Inv → step s = .next t → t.Inv

/-- 60_exceptions.md R240: a step changes no engine but the one its event is for, and neither the number of the engines nor
the algorithm of any (92_eei_decisions.md D1). -/
def Obligations.EnginesShareNothing : Prop :=
  ∀ s t : State, step s = .next t →
    (∀ q, (∀ ev, s.inbox.head? = some ev → ev.port ≠ q) → t.engines[q]? = s.engines[q]?) ∧
    t.engines.map Engine.alg = s.engines.map Engine.alg

/-- 60_exceptions.md R240, 20_memory.md R59: what an engine becomes and what it answers depend on that engine and on the
event offered to it, and on nothing else in the CORE. -/
def Obligations.AnEngineSeesOnlyItself : Prop :=
  ∀ (s₁ s₂ t₁ : State) (ev : Event), s₁.inbox.head? = some ev → s₂.inbox.head? = some ev →
    s₁.engines[ev.port]? = s₂.engines[ev.port]? → step s₁ = .next t₁ →
    ∃ t₂ ds, step s₂ = .next t₂ ∧ t₂.engines[ev.port]? = t₁.engines[ev.port]? ∧
      t₁.responses = s₁.responses ++ ds ∧ t₂.responses = s₂.responses ++ ds

/-- 60_exceptions.md R235: no command and no word, `RESET` included, changes a faulted engine, so faults do not nest; a
power-on reset of it does, and leaves it unfaulted. That the offer lapses is the model's choice (log entry 4). -/
def Obligations.OnlyPowerOnResetLeavesAFault : Prop :=
  ∀ (s : State) (e : Engine), e.faulted = true →
    (∀ i : Instr, s.engines[s.port]? = some e → exec i s = .next s) ∧
    (∀ (t : State) (p : Nat), step s = .next t → s.engines[p]? = some e → s.inbox.head? ≠ some ⟨p, .por⟩ →
      t.engines[p]? = some e) ∧
    (∀ (p : Nat) (rest : List Event), s.inbox = ⟨p, .por⟩ :: rest → s.engines[p]? = some e →
      ∃ t e', step s = .next t ∧ t.engines[p]? = some e' ∧ e'.faulted = false)

/-- 10_state.md R21, R25, R26, R27: which events change the working hash, the flags and the fault record of an engine. An
`INPUT` changes `H` only when it fills the block. -/
def Obligations.WritersOfHashFlagsAndRecord : Prop :=
  ∀ (s t : State) (p : Nat) (kind : EventKind) (rest : List Event) (e e' : Engine),
    s.inbox = ⟨p, kind⟩ :: rest → s.engines[p]? = some e → step s = .next t → t.engines[p]? = some e' →
    kind ≠ .por →
    (e'.H ≠ e.H → kind = .command (encode .reset) ∨ (e.mode = .absorbing ∧
      (kind = .command (encode .result) ∨ ∃ b, kind = .command (encode (.input b)) ∧ e.blockIndex.val = 63))) ∧
    (e'.finalized ≠ e.finalized → (e'.finalized = true ∧ kind = .command (encode .result) ∧ e.mode = .absorbing) ∨
      (e'.finalized = false ∧ kind = .command (encode .reset))) ∧
    (e'.corrupted ≠ e.corrupted →
      (e'.corrupted = true ∧ e.mode = .absorbing ∧ ∃ b, kind = .command (encode (.input b))) ∨
      (e'.corrupted = false ∧ kind = .command (encode .reset))) ∧
    ((e'.faulted, e'.faultCause, e'.faultCmd) ≠ (e.faulted, e.faultCause, e.faultCmd) →
      e.mode ≠ .faulted ∧ ∃ w, kind = .command w ∧ e'.faulted = true ∧ e'.faultCmd = w ∧
        ((illegalWord w ∧ e'.faultCause = 3) ∨
         (e.mode = .finalized ∧ e'.faultCause = 2 ∧ (w = encode .inputEmpty ∨ ∃ b, w = encode (.input b)))))

/-- 40_commands.md R108: the table of mode transitions, row by row and column by column. The spec marks it as derived.
That an offer to a faulted engine lapses is the model's choice (log entry 4). -/
def Obligations.ModeTransitionTable : Prop :=
  (∀ (s : State) (e : Engine), s.serves e → e.Inv →
    (∀ i : Instr, ∃ e' r, exec i s = .next (s.answered e' r) ∧
      match e.mode, i with
      | .absorbing, .input _    => r.status = .ok ∧
          e'.mode = if e.bitLength = 0xFFFFFFFFFFFFFFF8 then .corrupted else .absorbing
      | .absorbing, .inputEmpty => r.status = .ok ∧ e'.mode = .absorbing
      | .absorbing, .result     => r.status = .ok ∧ e'.mode = .finalized
      | .finalized, .input _    => r.status = .faultPrecondition ∧ e'.mode = .faulted
      | .finalized, .inputEmpty => r.status = .faultPrecondition ∧ e'.mode = .faulted
      | .finalized, .result     => r.status = .ok ∧ e'.mode = .finalized
      | .corrupted, .input _    => r.status = .errInputTooLong ∧ e'.mode = .corrupted
      | .corrupted, .inputEmpty => r.status = .errInputTooLong ∧ e'.mode = .corrupted
      | .corrupted, .result     => r.status = .errInputTooLong ∧ e'.mode = .corrupted
      | .faulted,   _           => False
      | _,          .reset      => r.status = .ok ∧ e'.mode = .absorbing
      | m,          .obits      => r.status = .ok ∧ e'.mode = m
      | m,          .obytes     => r.status = .ok ∧ e'.mode = m
      | m,          .bsize      => r.status = .ok ∧ e'.mode = m) ∧
    (∀ w : Cmd, illegalWord w → ∃ e', step { s with inbox := ⟨s.port, .command w⟩ :: s.inbox } =
      .next (s.answered e' ⟨.faultIllegalCommand, []⟩) ∧ e'.mode = .faulted)) ∧
  (∀ (s : State) (e : Engine) (w : Cmd), s.engines[s.port]? = some e → e.mode = .faulted →
    step { s with inbox := ⟨s.port, .command w⟩ :: s.inbox } = .next s)

/-! ### Errors and faults -/

/-- 60_exceptions.md R231: while `corrupted` is set, `INPUT`, `INPUT_EMPTY` and `RESULT` change no engine and answer
`(ERR_INPUT_TOO_LONG, [])`. -/
def Obligations.CorruptedEngineAnswersTooLong : Prop :=
  ∀ (s : State) (e : Engine) (b : Byte), s.serves e → e.corrupted = true →
    ∀ i ∈ [Instr.input b, .inputEmpty, .result], exec i s =
      .next { s with responses := s.responses ++ [⟨s.port, ⟨.errInputTooLong, []⟩⟩] }

/-- 60_exceptions.md R232: `INPUT` and `INPUT_EMPTY` after `RESULT` with no `RESET` between enter the fault state: the
record holds cause 2 and the command word, and nothing else of the engine changes. -/
def Obligations.InputAfterResultFaults : Prop :=
  ∀ (s : State) (e : Engine), s.serves e → e.corrupted = false → e.finalized = true →
    (∀ b : Byte, exec (.input b) s = .next (s.answered
      { e with faulted := true, faultCause := 2, faultCmd := BitVec.ofNat 16 (0x0100 + b.toNat) }
      ⟨.faultPrecondition, []⟩)) ∧
    exec .inputEmpty s = .next (s.answered
      { e with faulted := true, faultCause := 2, faultCmd := 0x0200 } ⟨.faultPrecondition, []⟩)

/-- 30_encoding.md R74, 60_exceptions.md R233: an illegal word, in any mode but `FAULTED`, changes nothing of the engine but
the fault record, with cause 3 and the word itself, and answers with status 3 and no data; no other engine changes. -/
def Obligations.IllegalWordFaults : Prop :=
  ∀ (s : State) (p : Nat) (w : Cmd) (rest : List Event) (e : Engine),
    s.inbox = ⟨p, .command w⟩ :: rest → s.engines[p]? = some e → e.porDone = true → e.faulted = false →
    illegalWord w →
    step s = .next { s with
      engines := s.engines.set p { e with faulted := true, faultCause := 3, faultCmd := w },
      inbox := rest, port := p, responses := s.responses ++ [⟨p, ⟨.faultIllegalCommand, []⟩⟩] }

/-! ### Input -/

/-- 40_commands.md R102: `INPUT_EMPTY` in mode `ABSORBING` changes no engine and answers `OK`. -/
def Obligations.InputEmptyIsANoOp : Prop :=
  ∀ (s : State) (e : Engine), s.serves e → e.corrupted = false → e.finalized = false →
    exec .inputEmpty s = .next { s with responses := s.responses ++ [⟨s.port, ⟨.ok, []⟩⟩] }

/-- 40_commands.md R101, 41_buffer_padding.md R140, R142: an `INPUT` that does not fill the block stores its byte at
`block_index`, advances the index by 1 and the bit length by 8, sets `corrupted` when the bit length wraps, and leaves every
other byte of the buffer, `H` and every other field alone. The bit length is a multiple of 8 by 10_state.md R29 item 3. -/
def Obligations.InputStoresOneByte : Prop :=
  ∀ (s : State) (e : Engine) (b : Byte), s.serves e → e.corrupted = false → e.finalized = false → e.buf.wf →
    e.lenLo.toNat % 8 = 0 → e.blockIndex.val < 63 →
    ∃ e', exec (.input b) s = .next (s.answered e' ⟨.ok, []⟩) ∧
      (∀ a, e'.buf.read a = if a = e.blockIndex.val then b else e.buf.read a) ∧
      e'.blockIndex.val = e.blockIndex.val + 1 ∧
      e'.bitLength = e.bitLength + 8 ∧
      (e'.corrupted = true ↔ e.bitLength = 0xFFFFFFFFFFFFFFF8) ∧
      e' = { e with buf := e'.buf, blockIndex := e'.blockIndex, lenLo := e'.lenLo, lenHi := e'.lenHi,
                    corrupted := e'.corrupted }

/-- 40_commands.md R101, 41_buffer_padding.md R140 to R142, 20_memory.md R53: the `INPUT` that fills position 63 stores its
byte, advances the bit length, compresses the 64 bytes of the block into `H`, and ends with `block_index` 0; compression does
not clear the buffer. -/
def Obligations.InputThatFillsTheBlockCompresses : Prop :=
  ∀ (s : State) (e : Engine) (b : Byte), s.serves e → e.corrupted = false → e.finalized = false → e.buf.wf →
    e.lenLo.toNat % 8 = 0 → e.blockIndex.val = 63 →
    ∃ e', exec (.input b) s = .next (s.answered e' ⟨.ok, []⟩) ∧
      (∀ a, e'.buf.read a = if a = 63 then b else e.buf.read a) ∧
      e'.H = compressHash e.H (wordsOf (fun a => if a = 63 then b else e.buf.read a)) ∧
      e'.blockIndex = 0 ∧
      e'.bitLength = e.bitLength + 8 ∧
      (e'.corrupted = true ↔ e.bitLength = 0xFFFFFFFFFFFFFFF8) ∧
      e' = { e with H := e'.H, buf := e'.buf, blockIndex := 0, lenLo := e'.lenLo, lenHi := e'.lenHi,
                    corrupted := e'.corrupted }

/-- 41_buffer_padding.md R142, 10_state.md R29 item 6: in an engine that meets its invariants, the byte that takes
`bit_length` from 2^64 − 8 to 0 completes a block, which is compressed, sets `corrupted`, and still answers `OK`; the next
`INPUT`, `INPUT_EMPTY` or `RESULT` answers the error. -/
def Obligations.OverflowingByteCorrupts : Prop :=
  ∀ (s : State) (e : Engine) (b : Byte), s.serves e → e.Inv → e.mode = .absorbing →
    e.bitLength = 0xFFFFFFFFFFFFFFF8 →
    e.blockIndex.val = 63 ∧ ∃ e', exec (.input b) s = .next (s.answered e' ⟨.ok, []⟩) ∧
      e'.mode = .corrupted ∧ e'.lenLo = 0 ∧ e'.lenHi = 0 ∧ e'.blockIndex = 0 ∧
      e'.H = compressHash e.H (wordsOf (fun a => if a = 63 then b else e.buf.read a)) ∧
      ∀ c : Byte, ∀ i ∈ [Instr.input c, .inputEmpty, .result], ∃ t, exec i (s.answered e' ⟨.ok, []⟩) = .next t ∧
        t.engines = (s.answered e' ⟨.ok, []⟩).engines ∧
        t.responses = s.responses ++ [⟨s.port, ⟨.ok, []⟩⟩, ⟨s.port, ⟨.errInputTooLong, []⟩⟩]

/-! ### Result -/

/-- 40_commands.md R103, 41_buffer_padding.md R143 to R147: the first `RESULT` with `block_index` at most 55 runs one
compression, over the message bytes, the 0x80 marker, zeros, and the bit length big-endian; it clears the buffer, the counters
and the index, sets `finalized`, and answers the serialized `H`. -/
def Obligations.FirstResultPadsWithinTheBlock : Prop :=
  ∀ (s : State) (e : Engine) (h : WorkingHash), s.serves e → e.corrupted = false → e.finalized = false → e.buf.wf →
    e.blockIndex.val ≤ 55 →
    h = compressHash e.H (wordsOf (fun a =>
      if a < e.blockIndex.val then e.buf.read a else if a = e.blockIndex.val then 0x80
      else if a < 56 then 0x00 else footerByte e.bitLength a)) →
    exec .result s = .next (s.answered
      { e with H := h, buf := [], blockIndex := 0, lenLo := 0, lenHi := 0, finalized := true } ⟨.ok, serialize h⟩)

/-- 40_commands.md R103, 41_buffer_padding.md R143 to R147, 90_conflicts.md C2: with `block_index` at least 56 the first
`RESULT` runs two compressions, the second over 56 zero bytes and the bit length. -/
def Obligations.FirstResultPadsOverTwoBlocks : Prop :=
  ∀ (s : State) (e : Engine) (h : WorkingHash), s.serves e → e.corrupted = false → e.finalized = false → e.buf.wf →
    56 ≤ e.blockIndex.val →
    h = compressHash
      (compressHash e.H (wordsOf (fun a =>
        if a < e.blockIndex.val then e.buf.read a else if a = e.blockIndex.val then 0x80 else 0x00)))
      (wordsOf (fun a => if a < 56 then 0x00 else footerByte e.bitLength a)) →
    exec .result s = .next (s.answered
      { e with H := h, buf := [], blockIndex := 0, lenLo := 0, lenHi := 0, finalized := true } ⟨.ok, serialize h⟩)

/-- 40_commands.md R103, 20_memory.md R57: on an engine that is not corrupted `RESULT` completes, and a second `RESULT`
changes no engine and answers the same bytes. -/
def Obligations.ResultIsIdempotent : Prop :=
  ∀ (s : State) (e : Engine), s.serves e → e.corrupted = false →
    ∃ e' data, exec .result s = .next (s.answered e' ⟨.ok, data⟩) ∧ e'.finalized = true ∧ data = serialize e'.H ∧
      (e.finalized = true → e' = e) ∧
      exec .result (s.answered e' ⟨.ok, data⟩) = .next { s.answered e' ⟨.ok, data⟩ with
        responses := s.responses ++ [⟨s.port, ⟨.ok, data⟩⟩, ⟨s.port, ⟨.ok, data⟩⟩] }

/-- 20_memory.md R54: byte `4i + j` of the digest is `H[i][31-8j : 24-8j]`, and the digest has `OUTPUT_BYTES` bytes. -/
def Obligations.DigestIsHashBigEndian : Prop :=
  ∀ h : WorkingHash, (serialize h).length = (outputBytes h.alg).toNat ∧ (serialize h).length = 4 * h.words.length ∧
    ∀ (i j : Nat) (w : Word), h.words[i]? = some w → j < 4 →
      (serialize h)[4 * i + j]? = some (w.extractLsb' (24 - 8 * j) 8)

/-! ### Queries -/

/-- 40_commands.md R105, R106, R107: the queries answer the constants of the engine's algorithm, two bytes, most significant
first, in every mode that accepts commands, and change nothing. -/
def Obligations.QueriesAnswerTheConstants : Prop :=
  ∀ (s : State) (e : Engine), s.serves e →
    (∀ i data, (i, data) ∈ [(Instr.obits, match e.alg with | .sha1 => [0x00, 0xA0] | .sha256 => [0x01, 0x00]),
        (.obytes, match e.alg with | .sha1 => [0x00, 0x14] | .sha256 => [0x00, 0x20]), (.bsize, [0x00, 0x40])] →
      exec i s = .next { s with responses := s.responses ++ [⟨s.port, ⟨.ok, data⟩⟩] }) ∧
    (outputBytes e.alg).toNat = ((outputBits e.alg).toNat + 7) / 8

/-! ### The message -/

/-- 20_memory.md R55, 41_buffer_padding.md R140, 10_state.md R22 to R24: an engine that holds a message holds, after an
`INPUT`, the message with that byte at its end, for every message that the bit length can count. -/
def Obligations.InputExtendsTheMessage : Prop :=
  ∀ (s : State) (e : Engine) (msg : List Byte) (b : Byte), s.serves e → e.Holds msg → e.buf.wf →
    msg.length + 1 < 2 ^ 61 →
    ∃ e', exec (.input b) s = .next (s.answered e' ⟨.ok, []⟩) ∧ e'.Holds (msg ++ [b]) ∧ e'.buf.wf ∧ e'.alg = e.alg

/-- 20_memory.md R55, 10_state.md R35: an engine fresh from power-on reset holds the empty message, and so does any engine
after an accepted `RESET`. -/
def Obligations.ResetHoldsTheEmptyMessage : Prop :=
  (∀ a : Alg, (Engine.por a).Holds []) ∧
  (∀ (s : State) (e : Engine), s.serves e →
    ∃ e', exec .reset s = .next (s.answered e' ⟨.ok, []⟩) ∧ e'.Holds [] ∧ e'.alg = e.alg)

/-- 00_scope.md R12, 41_buffer_padding.md R143 to R148: `RESULT` on an engine that holds a message answers the digest of the
padded message, whatever the stale bytes of its buffer are. -/
def Obligations.ResultIsTheDigestOfTheMessage : Prop :=
  ∀ (s : State) (e : Engine) (msg : List Byte), s.serves e → e.Holds msg → e.buf.wf → msg.length < 2 ^ 61 →
    ∃ e', exec .result s = .next (s.answered e' ⟨.ok, messageDigest e.alg msg⟩) ∧ e'.mode = .finalized

/-- 41_buffer_padding.md R148: the padded message fills `n/64 + 1` blocks when `n mod 64 <= 55`, else `n/64 + 2`; it begins
with the message and the 0x80 marker and ends with the bit length. -/
def Obligations.PaddedMessageFillsBlocks : Prop :=
  ∀ msg : List Byte,
    (paddedMessage msg).length = 64 * (msg.length / 64 + if msg.length % 64 ≤ 55 then 1 else 2) ∧
    (msg ++ [0x80]) <+: paddedMessage msg ∧
    ∀ a, 56 ≤ a → a < 64 → (paddedMessage msg)[(paddedMessage msg).length - 64 + a]? =
      some (footerByte (BitVec.ofNat 64 (8 * msg.length)) a)

/-- 41_buffer_padding.md R149: two engines that differ only in stale bytes answer every command alike, and still differ only
in stale bytes after it. -/
def Obligations.StaleBytesAreNeverObserved : Prop :=
  ∀ (i : Instr) (s : State) (e f : Engine), s.serves e → e.sameButStale f → e.buf.wf → f.buf.wf →
    ∃ e' f' r, exec i s = .next (s.answered e' r) ∧
      exec i { s with engines := s.engines.set s.port f } =
        .next (({ s with engines := s.engines.set s.port f } : State).answered f' r) ∧
      e'.sameButStale f'

/-! ### The buffer -/

/-- 20_memory.md R51: the buffer's accesses are big-endian. A word read is the four bytes from the lowest address on, the most
significant first; a write changes its own bytes and no other. -/
def Obligations.BufferAccessIsBigEndian : Prop :=
  ∀ m : Memory, m.wf →
    (∀ (a : Fin 61) (j : Nat), j < 4 → (memRead4 m a).extractLsb' (24 - 8 * j) 8 = m.read (a + j)) ∧
    (∀ (a : Fin 64) (v : Byte), memRead1 (memWrite1 m a v) a = v ∧
      ∀ c, c ≠ a.val → (memWrite1 m a v).read c = m.read c) ∧
    (∀ (a : Fin 61) (v : Word), memRead4 (memWrite4 m a v) a = v ∧
      (∀ j < 4, (memWrite4 m a v).read (a + j) = v.extractLsb' (24 - 8 * j) 8) ∧
      ∀ c, c < a.val ∨ a.val + 4 ≤ c → (memWrite4 m a v).read c = m.read c)

/-! ### The mixing primitives -/

/-- 44_mixing.md R200: addition mod 2^32, associative and commutative. -/
def Obligations.AdditionWraps : Prop :=
  ∀ x y z : Word, (add32 x y).toNat = (x.toNat + y.toNat) % 2 ^ 32 ∧
    add32 (add32 x y) z = add32 x (add32 y z) ∧ add32 x y = add32 y x

/-- 44_mixing.md R201, R202, R203: where each bit of a rotation and of a shift comes from. -/
def Obligations.RotationsAndShiftBitByBit : Prop :=
  ∀ (x : Word) (n : Nat), 1 ≤ n → n ≤ 31 →
    (∀ i < 32, (rotl32 x n).getLsbD i = x.getLsbD ((i + 32 - n) % 32)) ∧
    (∀ i < 32, (rotr32 x n).getLsbD i = x.getLsbD ((i + n) % 32)) ∧
    rotr32 x n = rotl32 x (32 - n) ∧
    (shr32 x n).toNat = x.toNat / 2 ^ n

/-- 44_mixing.md R205, R206, R207: the Boolean functions, bit by bit: `choice` chooses, `majority` is at least two of three,
`parity` is an odd number of three. -/
def Obligations.BooleanFunctionsBitByBit : Prop :=
  ∀ (x y z : Word) (i : Nat), i < 32 →
    (choice x y z).getLsbD i = (if x.getLsbD i then y.getLsbD i else z.getLsbD i) ∧
    ((majority x y z).getLsbD i = true ↔
      2 ≤ (x.getLsbD i).toNat + (y.getLsbD i).toNat + (z.getLsbD i).toNat) ∧
    ((parity x y z).getLsbD i = true ↔
      ((x.getLsbD i).toNat + (y.getLsbD i).toNat + (z.getLsbD i).toNat) % 2 = 1)

/-- 44_mixing.md R208 to R211: which three bits of the operand each bit of a sigma function is the sum of. -/
def Obligations.SigmaFunctionsBitByBit : Prop :=
  ∀ (x : Word) (i : Nat), i < 32 →
    (smallSigma0 x).getLsbD i =
      Bool.xor (Bool.xor (x.getLsbD ((i + 7) % 32)) (x.getLsbD ((i + 18) % 32))) (x.getLsbD (i + 3)) ∧
    (smallSigma1 x).getLsbD i =
      Bool.xor (Bool.xor (x.getLsbD ((i + 17) % 32)) (x.getLsbD ((i + 19) % 32))) (x.getLsbD (i + 10)) ∧
    (bigSigma0 x).getLsbD i =
      Bool.xor (Bool.xor (x.getLsbD ((i + 2) % 32)) (x.getLsbD ((i + 13) % 32))) (x.getLsbD ((i + 22) % 32)) ∧
    (bigSigma1 x).getLsbD i =
      Bool.xor (Bool.xor (x.getLsbD ((i + 6) % 32)) (x.getLsbD ((i + 11) % 32))) (x.getLsbD ((i + 25) % 32))

/-! ### The compression engines -/

/-- 42_sha1.md R162, R163: the round constants and round functions, range by range. -/
def Obligations.Sha1ConstantsAndFunctions : Prop :=
  ∀ t < 80, ∀ x y z : Word,
    (t ≤ 19 → sha1K t = 0x5A827999 ∧ sha1F t x y z = choice x y z) ∧
    (20 ≤ t → t ≤ 39 → sha1K t = 0x6ED9EBA1 ∧ sha1F t x y z = parity x y z) ∧
    (40 ≤ t → t ≤ 59 → sha1K t = 0x8F1BBCDC ∧ sha1F t x y z = majority x y z) ∧
    (60 ≤ t → sha1K t = 0xCA62C1D6 ∧ sha1F t x y z = parity x y z)

/-- 42_sha1.md R164: the schedule has 80 words: the 16 message words, then the recurrence. -/
def Obligations.Sha1ScheduleRecurrence : Prop :=
  ∀ (M : Fin 16 → Word) (W : Nat → Word), (∀ t, W t = (sha1Schedule M).getD t 0) →
    (sha1Schedule M).length = 80 ∧ (∀ t : Fin 16, W t.val = M t) ∧
    ∀ t, 16 ≤ t → t < 80 → W t = rotl32 (W (t - 3) ^^^ W (t - 8) ^^^ W (t - 14) ^^^ W (t - 16)) 1

/-- 42_sha1.md R165, R166: a compression starts from `H`, runs 80 rounds, each reading only the variables before it, and adds
the five variables back into `H`. The spec supplies the term `e` of R165 from general knowledge (log entry 12). -/
def Obligations.Sha1CompressionIsEightyRounds : Prop :=
  ∀ (h : Vector Word 5) (M : Fin 16 → Word), ∃ v : Nat → Sha1Vars,
    v 0 = ⟨h[0], h[1], h[2], h[3], h[4]⟩ ∧
    (∀ t < 80, v (t + 1) =
      ⟨rotl32 (v t).a 5 + sha1F t (v t).b (v t).c (v t).d + (v t).e + sha1K t + (sha1Schedule M).getD t 0,
       (v t).a, rotl32 (v t).b 30, (v t).c, (v t).d⟩) ∧
    sha1Compress h M = #v[h[0] + (v 80).a, h[1] + (v 80).b, h[2] + (v 80).c, h[3] + (v 80).d, h[4] + (v 80).e]

/-- 43_sha256.md R183: the schedule has 64 words: the 16 message words, then the recurrence. -/
def Obligations.Sha256ScheduleRecurrence : Prop :=
  ∀ (M : Fin 16 → Word) (W : Nat → Word), (∀ t, W t = (sha256Schedule M).getD t 0) →
    (sha256Schedule M).length = 64 ∧ (∀ t : Fin 16, W t.val = M t) ∧
    ∀ t, 16 ≤ t → t < 64 → W t = smallSigma1 (W (t - 2)) + W (t - 7) + smallSigma0 (W (t - 15)) + W (t - 16)

/-- 43_sha256.md R184, R186: a compression starts from `H`, runs 64 rounds, each reading only the variables before it, and adds
the eight variables back into `H`. -/
def Obligations.Sha256CompressionIsSixtyFourRounds : Prop :=
  ∀ (h : Vector Word 8) (M : Fin 16 → Word), ∃ (v : Nat → Sha256Vars) (T1 T2 : Nat → Word),
    v 0 = ⟨h[0], h[1], h[2], h[3], h[4], h[5], h[6], h[7]⟩ ∧
    (∀ t < 64,
      T1 t = (v t).h + bigSigma1 (v t).e + choice (v t).e (v t).f (v t).g + sha256K t + (sha256Schedule M).getD t 0 ∧
      T2 t = bigSigma0 (v t).a + majority (v t).a (v t).b (v t).c ∧
      v (t + 1) = ⟨T1 t + T2 t, (v t).a, (v t).b, (v t).c, (v t).d + T1 t, (v t).e, (v t).f, (v t).g⟩) ∧
    sha256Compress h M = #v[h[0] + (v 64).a, h[1] + (v 64).b, h[2] + (v 64).c, h[3] + (v 64).d,
                            h[4] + (v 64).e, h[5] + (v 64).f, h[6] + (v 64).g, h[7] + (v 64).h]

/-- 43_sha256.md R181, R182: each initial hash word is `floor(sqrt(p * 2^64)) mod 2^32` and each round constant
`floor(cbrt(p * 2^96)) mod 2^32`, for `p` the prime of that position. The spec supplies both tables from general knowledge (log
entry 12). -/
def Obligations.Sha256ConstantsAreRootsOfPrimes : Prop :=
  ∀ (primes : List Nat), primes = (List.range 312).filter Nat.Prime →
    primes.length = 64 ∧
    (∀ i : Fin 8, ∃ r, r ^ 2 ≤ primes.getD i.val 0 * 2 ^ 64 ∧ primes.getD i.val 0 * 2 ^ 64 < (r + 1) ^ 2 ∧
      (ivSha256[i]).toNat = r % 2 ^ 32) ∧
    (∀ i < 64, ∃ r, r ^ 3 ≤ primes.getD i 0 * 2 ^ 96 ∧ primes.getD i 0 * 2 ^ 96 < (r + 1) ^ 3 ∧
      (sha256K i).toNat = r % 2 ^ 32)

end Slice0
end

