-- ==== Sys2Proof/Laws/Bits.lean ====
section
/-! SUPPORT. The fields of a command word and the bytes of a word: taking apart what was put together, bit by bit. -/

namespace Sys2Proof

/-! ### Command words -/

theorem opField_append (op imm : Byte) : opField ((op ++ imm : BitVec (8 + 8))) = op := by
  apply BitVec.eq_of_getLsbD_eq
  intro k hk
  simp only [opField, BitVec.getLsbD_extractLsb', hk, decide_true, Bool.true_and]
  rw [BitVec.getLsbD_append, if_neg (by omega), Nat.add_sub_cancel_left]

theorem immField_append (op imm : Byte) : immField ((op ++ imm : BitVec (8 + 8))) = imm := by
  apply BitVec.eq_of_getLsbD_eq
  intro k hk
  simp only [immField, BitVec.getLsbD_extractLsb', hk, decide_true, Bool.true_and, Nat.zero_add]
  rw [BitVec.getLsbD_append, if_pos hk]

/-- A command word is its two fields. -/
theorem fields_append (w : Cmd) : ((opField w ++ immField w : BitVec (8 + 8))) = w := by
  apply BitVec.eq_of_getLsbD_eq
  intro k hk
  rw [BitVec.getLsbD_append]
  split
  · simp [immField, *]
  · have : k - 8 < 8 := by omega
    have h8 : 8 + (k - 8) = k := by omega
    simp [opField, this, h8]

theorem opField_encode (i : Instr) : opField (encode i) = opcode i := opField_append _ _

theorem immField_encode (i : Instr) : immField (encode i) = operandByte i := immField_append _ _

theorem opField_toNat (w : Cmd) : (opField w).toNat = w.toNat / 256 := by
  have := w.isLt
  simp [opField, BitVec.extractLsb', Nat.shiftRight_eq_div_pow]
  omega

theorem immField_toNat (w : Cmd) : (immField w).toNat = w.toNat % 256 := by
  simp [immField]

end Sys2Proof

namespace Sys2Proof.Machine

/-! ### Words and bytes -/

theorem getLsbD_wordOfBytes (b0 b1 b2 b3 : Byte) (k : Nat) (hk : k < 32) : (wordOfBytes b0 b1 b2 b3).getLsbD k =
    if k < 8 then b3.getLsbD k else if k < 16 then b2.getLsbD (k - 8)
    else if k < 24 then b1.getLsbD (k - 16) else b0.getLsbD (k - 24) := by
  unfold wordOfBytes
  show (((b0 ++ b1 : BitVec (8 + 8)) ++ b2 : BitVec (8 + 8 + 8)) ++ b3 : BitVec (8 + 8 + 8 + 8)).getLsbD k = _
  rw [BitVec.getLsbD_append, BitVec.getLsbD_append, BitVec.getLsbD_append]
  by_cases h8 : k < 8
  · simp [h8]
  · by_cases h16 : k < 16
    · have : k - 8 < 8 := by omega
      simp [h8, h16, this]
    · by_cases h24 : k < 24
      · have h1 : ¬ k - 8 < 8 := by omega
        have h2 : k - 8 - 8 < 8 := by omega
        have h3 : k - 8 - 8 = k - 16 := by omega
        have h4 : k - 16 < 8 := by omega
        simp [h8, h16, h24, h1, h3, h4]
      · have h1 : ¬ k - 8 < 8 := by omega
        have h2 : ¬ k - 8 - 8 < 8 := by omega
        have h3 : k - 8 - 8 - 8 = k - 24 := by omega
        simp only [h8, h16, h24, h1, h2, h3, if_false]

theorem getLsbD_wordByte (w : Word) (j k : Nat) :
    (wordByte w j).getLsbD k = (decide (k < 8) && w.getLsbD (24 - 8 * j + k)) := by
  simp [wordByte, BitVec.getLsbD_extractLsb']

/-- The bytes of a word put together from bytes. -/
theorem wordByte_wordOfBytes (b0 b1 b2 b3 : Byte) :
    wordByte (wordOfBytes b0 b1 b2 b3) 0 = b0 ∧ wordByte (wordOfBytes b0 b1 b2 b3) 1 = b1 ∧
    wordByte (wordOfBytes b0 b1 b2 b3) 2 = b2 ∧ wordByte (wordOfBytes b0 b1 b2 b3) 3 = b3 := by
  refine ⟨?_, ?_, ?_, ?_⟩ <;> apply BitVec.eq_of_getLsbD_eq <;> intro k hk <;>
    rw [getLsbD_wordByte, getLsbD_wordOfBytes _ _ _ _ _ (by omega)]
  · rw [if_neg (by omega), if_neg (by omega), if_neg (by omega)]; simp [hk]
  · rw [if_neg (by omega), if_neg (by omega), if_pos (by omega)]; simp [hk]
  · rw [if_neg (by omega), if_pos (by omega)]; simp [hk]
  · rw [if_pos (by omega)]; simp [hk]

/-- A word is its four bytes. -/
theorem wordOfBytes_wordByte (w : Word) :
    wordOfBytes (wordByte w 0) (wordByte w 1) (wordByte w 2) (wordByte w 3) = w := by
  apply BitVec.eq_of_getLsbD_eq
  intro k hk
  rw [getLsbD_wordOfBytes _ _ _ _ _ hk, getLsbD_wordByte, getLsbD_wordByte, getLsbD_wordByte, getLsbD_wordByte]
  by_cases h8 : k < 8
  · simp [h8]
  · by_cases h16 : k < 16
    · have h1 : k - 8 < 8 := by omega
      have h2 : 8 + (k - 8) = k := by omega
      simp [h8, h16, h1, h2]
    · by_cases h24 : k < 24
      · have h1 : k - 16 < 8 := by omega
        have h2 : 16 + (k - 16) = k := by omega
        simp [h8, h16, h24, h1, h2]
      · have h1 : k - 24 < 8 := by omega
        have h2 : 24 + (k - 24) = k := by omega
        simp [h8, h16, h24, h1, h2]

end Sys2Proof.Machine
end

