-- ==== Sys2Proof/Laws/Memory.lean ====
section
/-! SUPPORT. The block buffer: reading after writing, and that every operation keeps the canonical form. -/

namespace Sys2Proof.Machine

/-! ### The canonical form -/

theorem Memory.wf_nil : Memory.wf [] := by simp [Memory.wf]

theorem Memory.wf_tail {k : Nat} {v : Byte} {m : Memory} (h : Memory.wf ((k, v) :: m)) : m.wf :=
  ⟨(List.pairwise_cons.1 h.1).2, fun c hc => h.2 c (List.mem_cons_of_mem _ hc)⟩

theorem Memory.head_lt {k : Nat} {v : Byte} {m : Memory} (h : Memory.wf ((k, v) :: m)) : ∀ c ∈ m, k < c.1 :=
  (List.pairwise_cons.1 h.1).1

/-- An address below every listed one is not listed. -/
theorem Memory.read_eq_unlisted {m : Memory} {a : Nat} (h : ∀ c ∈ m, a < c.1) : m.read a = Memory.unlisted := by
  induction m with
  | nil => rfl
  | cons c m ih =>
    obtain ⟨k, v⟩ := c
    have hk : a < k := h (k, v) List.mem_cons_self
    rw [Memory.read, if_neg (by omega)]
    exact ih fun c hc => h c (List.mem_cons_of_mem _ hc)

/-- What is listed after a write is what was listed, or the byte written. -/
theorem Memory.mem_write {m : Memory} {a : Nat} {b : Byte} {c : Host.Cell} (h : c ∈ m.write a b) :
    c ∈ m ∨ (c = (a, b) ∧ b ≠ Memory.unlisted) := by
  induction m with
  | nil => unfold Memory.write Memory.listed at h; split at h <;> simp_all
  | cons d m ih =>
    obtain ⟨k, v⟩ := d
    unfold Memory.write Memory.listed at h
    split at h
    · split at h
      · exact .inl h
      · rcases List.mem_cons.1 h with rfl | h
        · exact .inr ⟨rfl, by assumption⟩
        · exact .inl h
    · split at h
      · split at h
        · exact .inl (List.mem_cons_of_mem _ h)
        · rcases List.mem_cons.1 h with rfl | h
          · exact .inr ⟨rfl, by assumption⟩
          · exact .inl (List.mem_cons_of_mem _ h)
      · rcases List.mem_cons.1 h with h | h
        · exact .inl (h ▸ List.mem_cons_self)
        · exact (ih h).imp_left (List.mem_cons_of_mem _)

/-- A byte write inside the buffer keeps the canonical form. -/
theorem Memory.write_wf {m : Memory} (hm : m.wf) {a : Nat} (ha : a < 64) (b : Byte) : (m.write a b).wf := by
  refine ⟨?_, fun c hc => ?_⟩
  · induction m with
    | nil => unfold Memory.write Memory.listed; split <;> simp
    | cons d m ih =>
      obtain ⟨k, v⟩ := d
      have hk := Memory.head_lt hm
      have hp := (Memory.wf_tail hm).1
      unfold Memory.write Memory.listed
      split
      · split
        · exact hm.1
        · refine List.pairwise_cons.2 ⟨fun c hc => ?_, hm.1⟩
          rcases List.mem_cons.1 hc with rfl | hc
          · assumption
          · have := hk c hc; simp only; omega
      · split
        · split
          · exact hp
          · subst_vars; exact List.pairwise_cons.2 ⟨hk, hp⟩
        · refine List.pairwise_cons.2 ⟨fun c hc => ?_, ih (Memory.wf_tail hm)⟩
          rcases Memory.mem_write hc with hc | ⟨rfl, -⟩
          · exact hk c hc
          · simp only; omega
  · rcases Memory.mem_write hc with hc | ⟨rfl, hb⟩
    · exact hm.2 c hc
    · exact ⟨ha, hb⟩

/-! ### Reading after writing -/

theorem Memory.read_listed_self {m : Memory} {a : Nat} (h : ∀ c ∈ m, a < c.1) (b : Byte) :
    (Memory.listed a b m).read a = b := by
  unfold Memory.listed
  split
  · rw [Memory.read_eq_unlisted h]; simp_all
  · simp [Memory.read]

theorem Memory.read_listed_other {a c : Nat} (h : c ≠ a) (b : Byte) (m : Memory) :
    (Memory.listed a b m).read c = m.read c := by
  unfold Memory.listed
  split
  · rfl
  · rw [Memory.read, if_neg (by omega)]

theorem Memory.read_write_same {m : Memory} (hm : m.wf) (a : Nat) (b : Byte) : (m.write a b).read a = b := by
  induction m with
  | nil => exact Memory.read_listed_self (by simp) b
  | cons d m ih =>
    obtain ⟨k, v⟩ := d
    unfold Memory.write
    split
    · refine Memory.read_listed_self (fun c hc => ?_) b
      rcases List.mem_cons.1 hc with rfl | hc
      · assumption
      · have := Memory.head_lt hm c hc; omega
    · split
      · subst_vars; exact Memory.read_listed_self (Memory.head_lt hm) b
      · rw [Memory.read, if_neg (by omega)]; exact ih (Memory.wf_tail hm)

theorem Memory.read_write_other {m : Memory} {a c : Nat} (h : c ≠ a) (b : Byte) : (m.write a b).read c = m.read c := by
  induction m with
  | nil => exact Memory.read_listed_other h b []
  | cons d m ih =>
    obtain ⟨k, v⟩ := d
    unfold Memory.write
    split
    · exact Memory.read_listed_other h b _
    · split
      · rw [Memory.read_listed_other h, Memory.read, if_neg (by omega)]
      · simp only [Memory.read, ih]

/-- The buffer after a byte write, read at any address. -/
theorem Memory.read_write {m : Memory} (hm : m.wf) (a c : Nat) (b : Byte) :
    (m.write a b).read c = if c = a then b else m.read c := by
  by_cases h : c = a
  · rw [if_pos h, h, Memory.read_write_same hm]
  · rw [if_neg h, Memory.read_write_other h]

/-- Canonical buffers that read the same are the same. -/
theorem Memory.eq_of_read_eq {m n : Memory} (hm : m.wf) (hn : n.wf) (h : ∀ a < 64, m.read a = n.read a) : m = n := by
  induction m generalizing n with
  | nil =>
    cases n with
    | nil => rfl
    | cons d n =>
      obtain ⟨k, v⟩ := d
      obtain ⟨hk, hv⟩ := hn.2 (k, v) List.mem_cons_self
      have := h k hk
      simp [Memory.read] at this
      exact absurd this.symm hv
  | cons c m ih =>
    obtain ⟨j, u⟩ := c
    obtain ⟨hj, hu⟩ := hm.2 (j, u) List.mem_cons_self
    cases n with
    | nil =>
      have := h j hj
      simp [Memory.read] at this
      exact absurd this hu
    | cons d n =>
      obtain ⟨k, v⟩ := d
      obtain ⟨hk, hv⟩ := hn.2 (k, v) List.mem_cons_self
      have hj' := h j hj
      have hk' := h k hk
      have key : j = k := by
        rcases Nat.lt_trichotomy j k with hlt | heq | hgt
        · have : Memory.read ((k, v) :: n) j = Memory.unlisted := Memory.read_eq_unlisted fun c hc => by
            rcases List.mem_cons.1 hc with rfl | hc
            · exact hlt
            · have := Memory.head_lt hn c hc; omega
          rw [this] at hj'
          simp [Memory.read] at hj'
          exact absurd hj' hu
        · exact heq
        · have : Memory.read ((j, u) :: m) k = Memory.unlisted := Memory.read_eq_unlisted fun c hc => by
            rcases List.mem_cons.1 hc with rfl | hc
            · exact hgt
            · have := Memory.head_lt hm c hc; omega
          rw [this] at hk'
          simp [Memory.read] at hk'
          exact absurd hk'.symm hv
      subst key
      have huv : u = v := by simpa [Memory.read] using hj'
      subst huv
      congr 1
      refine ih (Memory.wf_tail hm) (Memory.wf_tail hn) fun a ha => ?_
      by_cases haj : a = j
      · subst haj
        rw [Memory.read_eq_unlisted (Memory.head_lt hm), Memory.read_eq_unlisted (Memory.head_lt hn)]
      · have := h a ha
        simpa [Memory.read, Ne.symm haj] using this

/-! ### The primitives of R51, and the zero fill of R145 -/

theorem memWrite1_wf {m : Memory} (hm : m.wf) (a : Fin 64) (b : Byte) : (memWrite1 m a b).wf :=
  Memory.write_wf hm a.isLt b

theorem memWrite4_wf {m : Memory} (hm : m.wf) (a : Fin 61) (v : Word) : (memWrite4 m a v).wf := by
  have := a.isLt
  exact Memory.write_wf (Memory.write_wf (Memory.write_wf (Memory.write_wf hm (by omega) _) (by omega) _) (by omega) _)
    (by omega) _

theorem read_memWrite1 {m : Memory} (hm : m.wf) (a : Fin 64) (b : Byte) (c : Nat) :
    (memWrite1 m a b).read c = if c = a.val then b else m.read c := Memory.read_write hm _ _ _

theorem read_memWrite4 {m : Memory} (hm : m.wf) (a : Fin 61) (v : Word) (c : Nat) :
    (memWrite4 m a v).read c =
      if a.val ≤ c ∧ c < a.val + 4 then wordByte v (c - a.val) else m.read c := by
  have ha := a.isLt
  have h1 := Memory.write_wf hm (a := a.val) (by omega) (wordByte v 0)
  have h2 := Memory.write_wf h1 (a := a.val + 1) (by omega) (wordByte v 1)
  have h3 := Memory.write_wf h2 (a := a.val + 2) (by omega) (wordByte v 2)
  unfold memWrite4
  rw [Memory.read_write h3, Memory.read_write h2, Memory.read_write h1, Memory.read_write hm]
  by_cases h : a.val ≤ c ∧ c < a.val + 4
  · obtain ⟨d, rfl⟩ := Nat.exists_eq_add_of_le h.1
    have : d < 4 := by omega
    rw [if_pos h]
    interval_cases d <;> simp
  · rw [if_neg h, if_neg (by omega), if_neg (by omega), if_neg (by omega), if_neg (by omega)]

/-- A fold of zero writes over some of the addresses, read at any address. -/
theorem foldl_zero_spec (lo hi : Nat) (l : List (Fin 64)) {m : Memory} (hm : m.wf) :
    (l.foldl (fun m j => if lo ≤ j.val ∧ j.val < hi then memWrite1 m j 0x00 else m) m).wf ∧
    ∀ c, (l.foldl (fun m j => if lo ≤ j.val ∧ j.val < hi then memWrite1 m j 0x00 else m) m).read c =
      if lo ≤ c ∧ c < hi ∧ c ∈ l.map Fin.val then 0 else m.read c := by
  induction l generalizing m with
  | nil => exact ⟨hm, by simp⟩
  | cons j l ih =>
    simp only [List.foldl_cons, List.map_cons, List.mem_cons]
    by_cases hj : lo ≤ j.val ∧ j.val < hi
    · rw [if_pos hj]
      obtain ⟨hw, hr⟩ := ih (memWrite1_wf hm j 0x00)
      refine ⟨hw, fun c => ?_⟩
      rw [hr, read_memWrite1 hm]
      by_cases hc : c = j.val
      · subst hc; simp [hj.1, hj.2]
      · simp [hc]
    · rw [if_neg hj]
      obtain ⟨hw, hr⟩ := ih hm
      refine ⟨hw, fun c => ?_⟩
      rw [hr]
      by_cases hc : c = j.val
      · subst hc; rw [if_neg (by tauto), if_neg (by tauto)]
      · simp [hc]

theorem zeroRange_wf {m : Memory} (hm : m.wf) (lo hi : Nat) : (zeroRange m lo hi).wf :=
  (foldl_zero_spec lo hi _ hm).1

theorem read_zeroRange {m : Memory} (hm : m.wf) (lo hi c : Nat) (hc : c < 64) :
    (zeroRange m lo hi).read c = if lo ≤ c ∧ c < hi then 0 else m.read c := by
  have h := (foldl_zero_spec lo hi (List.finRange 64) hm).2 c
  have hmem : c ∈ (List.finRange 64).map Fin.val := List.mem_map.2 ⟨⟨c, hc⟩, List.mem_finRange _, rfl⟩
  rw [zeroRange, h]
  simp only [hmem, and_true]

/-- The message words depend on the 64 bytes of the buffer only. -/
theorem messageWord_congr {m n : Memory} (h : ∀ a < 64, m.read a = n.read a) : messageWord m = messageWord n := by
  funext t
  have := t.isLt
  simp only [messageWord, memRead4, wordAddr]
  rw [h _ (by omega), h _ (by omega), h _ (by omega), h _ (by omega)]

end Sys2Proof.Machine
end

