-- ==== Sys2Proof/Laws/State.lean ====
section
/-! SUPPORT. One lemma per field per update of the state, so that no proof unfolds a record update; and which fields each
procedure of an engine leaves alone. -/

namespace Sys2Proof.Machine

/-! ### The CORE -/

section Core
variable (s : State) (e : Engine) (r : Response) (w : Cmd)

@[simp] theorem State.deliver_engines : (s.deliver e r).engines = s.engines.set s.port e := rfl
@[simp] theorem State.deliver_inbox : (s.deliver e r).inbox = s.inbox := rfl
@[simp] theorem State.deliver_port : (s.deliver e r).port = s.port := rfl
@[simp] theorem State.deliver_responses : (s.deliver e r).responses = s.responses ++ [⟨s.port, r⟩] := rfl

@[simp] theorem State.offerFirst_engines : (s.offerFirst w).engines = s.engines := rfl
@[simp] theorem State.offerFirst_inbox : (s.offerFirst w).inbox = ⟨s.port, .command w⟩ :: s.inbox := rfl
@[simp] theorem State.offerFirst_port : (s.offerFirst w).port = s.port := rfl
@[simp] theorem State.offerFirst_responses : (s.offerFirst w).responses = s.responses := rfl

@[simp] theorem State.answered_eq_deliver : s.answered e r = s.deliver e r := rfl

end Core

/-- A position that holds an element is below the length. -/
theorem lt_length_of_getElem? {α : Type} {l : List α} {p : Nat} {x : α} (h : l[p]? = some x) : p < l.length :=
  (List.getElem?_eq_some_iff.1 h).1

/-- Writing back the element that a position holds. -/
theorem set_getElem?_self {α : Type} {l : List α} {p : Nat} {x : α} (h : l[p]? = some x) : l.set p x = l := by
  obtain ⟨hp, rfl⟩ := List.getElem?_eq_some_iff.1 h
  exact List.set_getElem_self hp

/-- A command that leaves its engine as it was leaves every engine as it was. -/
theorem State.deliver_self {s : State} {e : Engine} (h : s.engines[s.port]? = some e) (r : Response) :
    s.deliver e r = { s with responses := s.responses ++ [⟨s.port, r⟩] } := by
  unfold State.deliver
  rw [set_getElem?_self h]

/-! ### The mode -/

theorem Engine.mode_absorbing_iff {e : Engine} :
    e.mode = .absorbing ↔ e.faulted = false ∧ e.corrupted = false ∧ e.finalized = false := by
  unfold Engine.mode; cases e.faulted <;> cases e.corrupted <;> cases e.finalized <;> simp
theorem Engine.mode_finalized_iff {e : Engine} :
    e.mode = .finalized ↔ e.faulted = false ∧ e.corrupted = false ∧ e.finalized = true := by
  unfold Engine.mode; cases e.faulted <;> cases e.corrupted <;> cases e.finalized <;> simp
theorem Engine.mode_corrupted_iff {e : Engine} : e.mode = .corrupted ↔ e.faulted = false ∧ e.corrupted = true := by
  unfold Engine.mode; cases e.faulted <;> cases e.corrupted <;> cases e.finalized <;> simp
theorem Engine.mode_faulted_iff {e : Engine} : e.mode = .faulted ↔ e.faulted = true := by
  unfold Engine.mode; cases e.faulted <;> cases e.corrupted <;> cases e.finalized <;> simp

/-! ### The working hash -/

@[simp] theorem compressHash_alg (h : WorkingHash) (M : Fin 16 → Word) : (compressHash h M).alg = h.alg := by
  cases h <;> rfl

@[simp] theorem initialHash_alg (a : Alg) : (initialHash a).alg = a := by cases a <;> rfl

@[simp] theorem Engine.por_alg (a : Alg) : (Engine.por a).alg = a := initialHash_alg a

/-! ### One engine -/

section Engine
variable (e : Engine) (b : Byte) (k : Nat)

@[simp] theorem compress_H : (compress e).H = compressHash e.H (messageWord e.buf) := rfl
@[simp] theorem compress_buf : (compress e).buf = e.buf := rfl
@[simp] theorem compress_blockIndex : (compress e).blockIndex = e.blockIndex := rfl
@[simp] theorem compress_lenLo : (compress e).lenLo = e.lenLo := rfl
@[simp] theorem compress_lenHi : (compress e).lenHi = e.lenHi := rfl
@[simp] theorem compress_finalized : (compress e).finalized = e.finalized := rfl
@[simp] theorem compress_corrupted : (compress e).corrupted = e.corrupted := rfl
@[simp] theorem compress_faulted : (compress e).faulted = e.faulted := rfl
@[simp] theorem compress_faultCause : (compress e).faultCause = e.faultCause := rfl
@[simp] theorem compress_faultCmd : (compress e).faultCmd = e.faultCmd := rfl
@[simp] theorem compress_porDone : (compress e).porDone = e.porDone := rfl
@[simp] theorem compress_alg : (compress e).alg = e.alg := compressHash_alg _ _

@[simp] theorem reinitialise_H : (reinitialise e).H = initialHash e.alg := rfl
@[simp] theorem reinitialise_buf : (reinitialise e).buf = [] := rfl
@[simp] theorem reinitialise_blockIndex : (reinitialise e).blockIndex = 0 := rfl
@[simp] theorem reinitialise_lenLo : (reinitialise e).lenLo = 0 := rfl
@[simp] theorem reinitialise_lenHi : (reinitialise e).lenHi = 0 := rfl
@[simp] theorem reinitialise_finalized : (reinitialise e).finalized = false := rfl
@[simp] theorem reinitialise_corrupted : (reinitialise e).corrupted = false := rfl
@[simp] theorem reinitialise_faulted : (reinitialise e).faulted = e.faulted := rfl
@[simp] theorem reinitialise_faultCause : (reinitialise e).faultCause = e.faultCause := rfl
@[simp] theorem reinitialise_faultCmd : (reinitialise e).faultCmd = e.faultCmd := rfl
@[simp] theorem reinitialise_porDone : (reinitialise e).porDone = e.porDone := rfl
@[simp] theorem reinitialise_alg : (reinitialise e).alg = e.alg := initialHash_alg _

/-- The four ways the length counter moves: no carry, a carry into the high half, the overflow (R142). -/
theorem incrementLength_eq : incrementLength e =
    { e with
      lenLo := add32 e.lenLo 8
      lenHi := if add32 e.lenLo 8 = 0 then add32 e.lenHi 1 else e.lenHi
      corrupted := e.corrupted || (decide (add32 e.lenLo 8 = 0) && decide (add32 e.lenHi 1 = 0)) } := by
  unfold incrementLength
  generalize add32 e.lenLo 8 = lo
  generalize add32 e.lenHi 1 = hi
  by_cases hl : lo = 0
  · by_cases hh : hi = 0
    · simp [hl, hh]
    · simp only [hl, hh, ↓reduceIte, decide_true, decide_false, Bool.true_and, Bool.or_false]
  · simp only [hl, ↓reduceIte, decide_false, Bool.false_and, Bool.or_false]

@[simp] theorem incrementLength_H : (incrementLength e).H = e.H := by rw [incrementLength_eq]
@[simp] theorem incrementLength_buf : (incrementLength e).buf = e.buf := by rw [incrementLength_eq]
@[simp] theorem incrementLength_blockIndex : (incrementLength e).blockIndex = e.blockIndex := by rw [incrementLength_eq]
@[simp] theorem incrementLength_lenLo : (incrementLength e).lenLo = add32 e.lenLo 8 := by rw [incrementLength_eq]
@[simp] theorem incrementLength_lenHi : (incrementLength e).lenHi =
    if add32 e.lenLo 8 = 0 then add32 e.lenHi 1 else e.lenHi := by rw [incrementLength_eq]
@[simp] theorem incrementLength_finalized : (incrementLength e).finalized = e.finalized := by rw [incrementLength_eq]
@[simp] theorem incrementLength_corrupted : (incrementLength e).corrupted =
    (e.corrupted || (decide (add32 e.lenLo 8 = 0) && decide (add32 e.lenHi 1 = 0))) := by rw [incrementLength_eq]
@[simp] theorem incrementLength_faulted : (incrementLength e).faulted = e.faulted := by rw [incrementLength_eq]
@[simp] theorem incrementLength_faultCause : (incrementLength e).faultCause = e.faultCause := by rw [incrementLength_eq]
@[simp] theorem incrementLength_faultCmd : (incrementLength e).faultCmd = e.faultCmd := by rw [incrementLength_eq]
@[simp] theorem incrementLength_porDone : (incrementLength e).porDone = e.porDone := by rw [incrementLength_eq]

/-- The bit length is the two halves side by side (R24). -/
theorem Engine.bitLength_toNat : e.bitLength.toNat = e.lenHi.toNat * 2 ^ 32 + e.lenLo.toNat := by
  unfold Engine.bitLength
  rw [BitVec.toNat_append, Nat.shiftLeft_eq, Nat.mul_comm, ← Nat.two_pow_add_eq_or_of_lt e.lenLo.isLt]

/-- Absorbing a byte that does not fill the block (R140). -/
theorem absorbByte_of_lt (h : e.blockIndex.val + 1 < 64) : absorbByte b e =
    { incrementLength e with buf := memWrite1 e.buf e.blockIndex b, blockIndex := ⟨e.blockIndex.val + 1, h⟩ } := by
  simp [absorbByte, incrementLength_eq, h]

/-- Absorbing the byte that fills the block (R140). -/
theorem absorbByte_of_last (h : e.blockIndex.val = 63) : absorbByte b e =
    { incrementLength e with
      H := compressHash e.H (messageWord (memWrite1 e.buf e.blockIndex b))
      buf := memWrite1 e.buf e.blockIndex b
      blockIndex := 0 } := by
  simp [absorbByte, incrementLength_eq, h, compress]

/-- The index after a byte: 64 has become 0 (R140). -/
theorem absorbByte_blockIndex_val : (absorbByte b e).blockIndex.val = (e.blockIndex.val + 1) % 64 := by
  have := e.blockIndex.isLt
  by_cases h : e.blockIndex.val + 1 < 64
  · rw [absorbByte_of_lt e b h]; exact (Nat.mod_eq_of_lt h).symm
  · have h : e.blockIndex.val = 63 := by omega
    rw [absorbByte_of_last e b h, h]; rfl

@[simp] theorem absorbByte_buf : (absorbByte b e).buf = memWrite1 e.buf e.blockIndex b := by
  unfold absorbByte; dsimp only; split <;> simp
@[simp] theorem absorbByte_lenLo : (absorbByte b e).lenLo = (incrementLength e).lenLo := by
  unfold absorbByte; dsimp only; split <;> simp
@[simp] theorem absorbByte_lenHi : (absorbByte b e).lenHi = (incrementLength e).lenHi := by
  unfold absorbByte; dsimp only; split <;> simp
@[simp] theorem absorbByte_finalized : (absorbByte b e).finalized = e.finalized := by
  unfold absorbByte; dsimp only; split <;> simp
@[simp] theorem absorbByte_corrupted : (absorbByte b e).corrupted = (incrementLength e).corrupted := by
  unfold absorbByte; dsimp only; split <;> simp
@[simp] theorem absorbByte_faulted : (absorbByte b e).faulted = e.faulted := by
  unfold absorbByte; dsimp only; split <;> simp
@[simp] theorem absorbByte_faultCause : (absorbByte b e).faultCause = e.faultCause := by
  unfold absorbByte; dsimp only; split <;> simp
@[simp] theorem absorbByte_faultCmd : (absorbByte b e).faultCmd = e.faultCmd := by
  unfold absorbByte; dsimp only; split <;> simp
@[simp] theorem absorbByte_porDone : (absorbByte b e).porDone = e.porDone := by
  unfold absorbByte; dsimp only; split <;> simp
@[simp] theorem absorbByte_alg : (absorbByte b e).alg = e.alg := by
  unfold absorbByte; dsimp only; split <;> simp [Engine.alg]

/-- The padding of a message whose last block has room for the marker and the footer (R144 to R147). -/
theorem finalize_oneBlock (h : e.blockIndex.val ≤ 55) : finalize e =
    { e with
      H := compressHash e.H (messageWord (memWrite4 (memWrite4
        (zeroRange (memWrite1 e.buf e.blockIndex 0x80) (e.blockIndex.val + 1) 56) 56 e.lenHi) 60 e.lenLo))
      buf := [], lenLo := 0, lenHi := 0, blockIndex := 0, finalized := true } := by
  have : ¬ e.blockIndex.val + 1 > 56 := by omega
  simp [finalize, finalCompress, writeFooter, zeroFill, markerEnd, padMarker, compress, this]

/-- The padding of a message that needs a second block (R144 to R147). -/
theorem finalize_twoBlocks (h : 56 ≤ e.blockIndex.val) : finalize e =
    { e with
      H := compressHash
        (compressHash e.H (messageWord (zeroRange (memWrite1 e.buf e.blockIndex 0x80) (e.blockIndex.val + 1) 64)))
        (messageWord (memWrite4 (memWrite4
          (zeroRange (zeroRange (memWrite1 e.buf e.blockIndex 0x80) (e.blockIndex.val + 1) 64) 0 56) 56 e.lenHi)
          60 e.lenLo))
      buf := [], lenLo := 0, lenHi := 0, blockIndex := 0, finalized := true } := by
  have : e.blockIndex.val + 1 > 56 := by omega
  simp [finalize, finalCompress, writeFooter, zeroFill, markerEnd, padMarker, compress, this]

@[simp] theorem finalize_buf : (finalize e).buf = [] := rfl
@[simp] theorem finalize_blockIndex : (finalize e).blockIndex = 0 := rfl
@[simp] theorem finalize_lenLo : (finalize e).lenLo = 0 := rfl
@[simp] theorem finalize_lenHi : (finalize e).lenHi = 0 := rfl
@[simp] theorem finalize_finalized : (finalize e).finalized = true := rfl
@[simp] theorem finalize_corrupted : (finalize e).corrupted = e.corrupted := by
  by_cases h : e.blockIndex.val ≤ 55
  · rw [finalize_oneBlock e h]
  · rw [finalize_twoBlocks e (by omega)]
@[simp] theorem finalize_faulted : (finalize e).faulted = e.faulted := by
  by_cases h : e.blockIndex.val ≤ 55
  · rw [finalize_oneBlock e h]
  · rw [finalize_twoBlocks e (by omega)]
@[simp] theorem finalize_faultCause : (finalize e).faultCause = e.faultCause := by
  by_cases h : e.blockIndex.val ≤ 55
  · rw [finalize_oneBlock e h]
  · rw [finalize_twoBlocks e (by omega)]
@[simp] theorem finalize_faultCmd : (finalize e).faultCmd = e.faultCmd := by
  by_cases h : e.blockIndex.val ≤ 55
  · rw [finalize_oneBlock e h]
  · rw [finalize_twoBlocks e (by omega)]
@[simp] theorem finalize_porDone : (finalize e).porDone = e.porDone := by
  by_cases h : e.blockIndex.val ≤ 55
  · rw [finalize_oneBlock e h]
  · rw [finalize_twoBlocks e (by omega)]
@[simp] theorem finalize_alg : (finalize e).alg = e.alg := by
  by_cases h : e.blockIndex.val ≤ 55
  · rw [finalize_oneBlock e h]; simp [Engine.alg]
  · rw [finalize_twoBlocks e (by omega)]; simp [Engine.alg]

end Engine

end Sys2Proof.Machine
end

