-- ==== Sys2Proof/Laws/Ops.lean ====
section
/-! SUPPORT. What the shared operations can do, said once: a command on an engine, a step of the CORE. The proofs cite these
lemmas instead of unfolding `onEngine`, `exec` or `step`. -/

namespace Sys2Proof.Machine

/-! ### A command on the engine of the port being handled -/

theorem Engine.accepts_eq_true_iff (e : Engine) : e.accepts = true ↔ e.porDone = true ∧ e.faulted = false := by
  simp [Engine.accepts]

/-- An engine that serves is written and answers. -/
theorem onEngine_of_serves {s : State} {e : Engine} (h : s.serves e) (f : Engine → Engine × Response) :
    onEngine f s = .next (s.deliver (f e).1 (f e).2) := by
  unfold onEngine
  rw [h.1]
  simp [e.accepts_eq_true_iff.2 h.2]

/-- An engine that accepts no command takes no step. -/
theorem onEngine_of_not_accepts {s : State} {e : Engine} (h : s.engines[s.port]? = some e) (ha : e.accepts = false)
    (f : Engine → Engine × Response) : onEngine f s = .next s := by
  unfold onEngine
  rw [h]
  simp [ha]

/-- A port without an engine stops the machine. -/
theorem onEngine_of_none {s : State} (h : s.engines[s.port]? = none) (f : Engine → Engine × Response) :
    onEngine f s = .fault (.noSuchEngine s.port) := by
  unfold onEngine
  rw [h]

/-- The next state of a command: the engine served, or it took no step. -/
theorem onEngine_next {s t : State} {f : Engine → Engine × Response} (h : onEngine f s = .next t) :
    (∃ e, s.serves e ∧ t = s.deliver (f e).1 (f e).2) ∨
    (∃ e, s.engines[s.port]? = some e ∧ e.accepts = false ∧ t = s) := by
  cases hp : s.engines[s.port]? with
  | none => rw [onEngine_of_none hp] at h; cases h
  | some e =>
    cases ha : e.accepts with
    | true =>
      have hs : s.serves e := ⟨hp, e.accepts_eq_true_iff.1 ha⟩
      rw [onEngine_of_serves hs] at h
      cases h
      exact .inl ⟨e, hs, rfl⟩
    | false =>
      rw [onEngine_of_not_accepts hp ha] at h
      cases h
      exact .inr ⟨e, rfl, ha, rfl⟩

/-! ### The effect of a command, and of a word, on one engine -/

/-- What each command makes of an engine that accepts it, and the response it gives. -/
def commandEffect : Instr → Engine → Engine × Response
  | .input b    => inputCommand b
  | .inputEmpty => inputEmptyCommand
  | .result     => resultCommand
  | .reset      => resetCommand
  | .obits      => queryCommand outputBits
  | .obytes     => queryCommand outputBytes
  | .bsize      => queryCommand blockSize

/-- What a command word makes of an engine that accepts it. -/
def wordEffect (w : Cmd) (e : Engine) : Engine × Response :=
  match decode w with
  | .ok i    => commandEffect i e
  | .error _ => raiseFault .illegalCommand w e

theorem exec_eq_onEngine (i : Instr) : exec i = onEngine (commandEffect i) := by
  cases i <;> rfl

theorem exec_of_serves {s : State} {e : Engine} (h : s.serves e) (i : Instr) :
    exec i s = .next (s.deliver (commandEffect i e).1 (commandEffect i e).2) := by
  rw [exec_eq_onEngine, onEngine_of_serves h]

theorem rejectWord_of_serves {s : State} {e : Engine} (h : s.serves e) (w : Cmd) :
    rejectWord w s = .next (s.deliver (raiseFault .illegalCommand w e).1 (raiseFault .illegalCommand w e).2) :=
  onEngine_of_serves h _

/-! ### A step -/

/-- The CORE with its oldest event taken. -/
def State.taken (s : State) (p : Nat) (rest : List Event) : State := { s with inbox := rest, port := p }

@[simp] theorem State.taken_engines (s : State) (p : Nat) (rest : List Event) : (s.taken p rest).engines = s.engines := rfl
@[simp] theorem State.taken_inbox (s : State) (p : Nat) (rest : List Event) : (s.taken p rest).inbox = rest := rfl
@[simp] theorem State.taken_port (s : State) (p : Nat) (rest : List Event) : (s.taken p rest).port = p := rfl
@[simp] theorem State.taken_responses (s : State) (p : Nat) (rest : List Event) :
    (s.taken p rest).responses = s.responses := rfl

theorem step_of_nil {s : State} (h : s.inbox = []) : step s = .next s := by
  simp [step, takeEvent, h]

theorem step_of_por {s : State} {p : Nat} {rest : List Event} (h : s.inbox = ⟨p, .por⟩ :: rest) :
    step s = powerOnReset (s.taken p rest) := by
  simp [step, takeEvent, h, State.taken]

/-- A word is a command or an illegal word, on the engine of its port either way. -/
theorem step_of_command {s : State} {p : Nat} {w : Cmd} {rest : List Event} (h : s.inbox = ⟨p, .command w⟩ :: rest) :
    step s = onEngine (wordEffect w) (s.taken p rest) := by
  cases hd : decode w with
  | ok i =>
    have key : step s = exec i (s.taken p rest) := by simp [step, takeEvent, h, hd, State.taken]
    have eff : wordEffect w = commandEffect i := by funext e; simp [wordEffect, hd]
    rw [key, exec_eq_onEngine, eff]
  | error why =>
    have key : step s = rejectWord w (s.taken p rest) := by simp [step, takeEvent, h, hd, State.taken]
    have eff : wordEffect w = raiseFault .illegalCommand w := by funext e; simp [wordEffect, hd]
    rw [key, rejectWord, eff]

theorem powerOnReset_of_some {s : State} {e : Engine} (h : s.engines[s.port]? = some e) :
    powerOnReset s = .next { s with engines := s.engines.set s.port (Engine.por e.alg) } := by
  unfold powerOnReset
  rw [h]

theorem powerOnReset_of_none {s : State} (h : s.engines[s.port]? = none) :
    powerOnReset s = .fault (.noSuchEngine s.port) := by
  unfold powerOnReset
  rw [h]

/-- Everything that a step can do. -/
theorem step_next {s t : State} (h : step s = .next t) :
    (s.inbox = [] ∧ t = s) ∨
    ∃ p kind rest e, s.inbox = ⟨p, kind⟩ :: rest ∧ s.engines[p]? = some e ∧
      ((kind = .por ∧ t = { s.taken p rest with engines := s.engines.set p (Engine.por e.alg) }) ∨
       (∃ w, kind = .command w ∧ e.accepts = true ∧
          t = (s.taken p rest).deliver (wordEffect w e).1 (wordEffect w e).2) ∨
       (∃ w, kind = .command w ∧ e.accepts = false ∧ t = s.taken p rest)) := by
  cases hi : s.inbox with
  | nil => rw [step_of_nil hi] at h; cases h; exact .inl ⟨rfl, rfl⟩
  | cons ev rest =>
    obtain ⟨p, kind⟩ := ev
    refine .inr ?_
    cases kind with
    | por =>
      rw [step_of_por hi] at h
      cases hp : s.engines[p]? with
      | none => rw [powerOnReset_of_none (s := s.taken p rest) hp] at h; cases h
      | some e =>
        rw [powerOnReset_of_some (s := s.taken p rest) hp] at h
        cases h
        exact ⟨p, .por, rest, e, rfl, hp, .inl ⟨rfl, rfl⟩⟩
    | command w =>
      rw [step_of_command hi] at h
      rcases onEngine_next h with ⟨e, hs, rfl⟩ | ⟨e, hp, ha, rfl⟩
      · exact ⟨p, _, rest, e, rfl, hs.1, .inr (.inl ⟨w, rfl, e.accepts_eq_true_iff.2 hs.2, rfl⟩)⟩
      · exact ⟨p, _, rest, e, rfl, hp, .inr (.inr ⟨w, rfl, ha, rfl⟩)⟩

end Sys2Proof.Machine
end

