-- ==== Sys2Proof/Laws/Commands.lean ====
section
/-! SUPPORT. What each command does to an engine, case by case; and that no command breaks the canonical form of the buffer
or changes the algorithm of an engine. -/

namespace Sys2Proof.Machine

/-! ### The guards -/

section Guards
variable {e : Engine} {cmd : Cmd} {f : Engine → Engine × Response}

theorem unlessCorrupted_of_corrupted (h : e.corrupted = true) : unlessCorrupted f e = (e, respondTooLong) := by
  simp [unlessCorrupted, h]

theorem unlessCorrupted_of_not (h : e.corrupted = false) : unlessCorrupted f e = f e := by
  simp [unlessCorrupted, h]

theorem guardInput_of_corrupted (h : e.corrupted = true) : guardInput cmd f e = (e, respondTooLong) :=
  unlessCorrupted_of_corrupted h

theorem guardInput_of_finalized (hc : e.corrupted = false) (hf : e.finalized = true) :
    guardInput cmd f e = raiseFault .precondition cmd e := by
  simp [guardInput, unlessCorrupted, unlessFinalized, hc, hf]

theorem guardInput_of_absorbing (hc : e.corrupted = false) (hf : e.finalized = false) : guardInput cmd f e = f e := by
  simp [guardInput, unlessCorrupted, unlessFinalized, hc, hf]

end Guards

/-! ### Fault entry -/

section FaultEntry
variable (f : Cause) (cmd : Cmd) (e : Engine)

@[simp] theorem raiseFault_H : (raiseFault f cmd e).1.H = e.H := rfl
@[simp] theorem raiseFault_buf : (raiseFault f cmd e).1.buf = e.buf := rfl
@[simp] theorem raiseFault_blockIndex : (raiseFault f cmd e).1.blockIndex = e.blockIndex := rfl
@[simp] theorem raiseFault_lenLo : (raiseFault f cmd e).1.lenLo = e.lenLo := rfl
@[simp] theorem raiseFault_lenHi : (raiseFault f cmd e).1.lenHi = e.lenHi := rfl
@[simp] theorem raiseFault_finalized : (raiseFault f cmd e).1.finalized = e.finalized := rfl
@[simp] theorem raiseFault_corrupted : (raiseFault f cmd e).1.corrupted = e.corrupted := rfl
@[simp] theorem raiseFault_faulted : (raiseFault f cmd e).1.faulted = true := rfl
@[simp] theorem raiseFault_faultCause : (raiseFault f cmd e).1.faultCause = f.status.code := rfl
@[simp] theorem raiseFault_faultCmd : (raiseFault f cmd e).1.faultCmd = cmd := rfl
@[simp] theorem raiseFault_porDone : (raiseFault f cmd e).1.porDone = e.porDone := rfl
@[simp] theorem raiseFault_alg : (raiseFault f cmd e).1.alg = e.alg := rfl
@[simp] theorem raiseFault_response : (raiseFault f cmd e).2 = ⟨f.status, []⟩ := rfl

end FaultEntry

/-! ### Finalization -/

theorem ensureFinalized_of_finalized {e : Engine} (h : e.finalized = true) : ensureFinalized e = e := by
  simp [ensureFinalized, h]

theorem ensureFinalized_of_not {e : Engine} (h : e.finalized = false) : ensureFinalized e = finalize e := by
  simp [ensureFinalized, h]

/-! ### The commands under their guards -/

section UnderGuards
variable {e : Engine}

theorem commandEffect_input_of_absorbing (hc : e.corrupted = false) (hf : e.finalized = false) (b : Byte) :
    commandEffect (.input b) e = (absorbByte b e, respondOk []) := by
  simp only [commandEffect, inputCommand, guardInput_of_absorbing hc hf]

theorem commandEffect_input_of_finalized (hc : e.corrupted = false) (hf : e.finalized = true) (b : Byte) :
    commandEffect (.input b) e = raiseFault .precondition (encode (.input b)) e := by
  simp only [commandEffect, inputCommand, guardInput_of_finalized hc hf]

theorem commandEffect_input_of_corrupted (hc : e.corrupted = true) (b : Byte) :
    commandEffect (.input b) e = (e, respondTooLong) := by
  simp only [commandEffect, inputCommand, guardInput_of_corrupted hc]

theorem commandEffect_inputEmpty_of_absorbing (hc : e.corrupted = false) (hf : e.finalized = false) :
    commandEffect .inputEmpty e = (e, respondOk []) := by
  simp only [commandEffect, inputEmptyCommand, guardInput_of_absorbing hc hf]

theorem commandEffect_inputEmpty_of_finalized (hc : e.corrupted = false) (hf : e.finalized = true) :
    commandEffect .inputEmpty e = raiseFault .precondition (encode .inputEmpty) e := by
  simp only [commandEffect, inputEmptyCommand, guardInput_of_finalized hc hf]

theorem commandEffect_inputEmpty_of_corrupted (hc : e.corrupted = true) :
    commandEffect .inputEmpty e = (e, respondTooLong) := by
  simp only [commandEffect, inputEmptyCommand, guardInput_of_corrupted hc]

theorem commandEffect_result_of_absorbing (hc : e.corrupted = false) (hf : e.finalized = false) :
    commandEffect .result e = (finalize e, respondOk (serialize (finalize e).H)) := by
  simp only [commandEffect, resultCommand, unlessCorrupted_of_not hc, ensureFinalized_of_not hf]

theorem commandEffect_result_of_finalized (hc : e.corrupted = false) (hf : e.finalized = true) :
    commandEffect .result e = (e, respondOk (serialize e.H)) := by
  simp only [commandEffect, resultCommand, unlessCorrupted_of_not hc, ensureFinalized_of_finalized hf]

theorem commandEffect_result_of_corrupted (hc : e.corrupted = true) :
    commandEffect .result e = (e, respondTooLong) := by
  simp only [commandEffect, resultCommand, unlessCorrupted_of_corrupted hc]

end UnderGuards

/-! ### What one command makes of an engine: the cases -/

/-- An engine after a command: as it was, with a byte absorbed, finalized, re-initialised, or faulted. -/
theorem commandEffect_cases (i : Instr) (e : Engine) :
    (commandEffect i e).1 = e ∨
    (∃ b, i = .input b ∧ e.corrupted = false ∧ e.finalized = false ∧ (commandEffect i e).1 = absorbByte b e) ∨
    (i = .result ∧ e.corrupted = false ∧ e.finalized = false ∧ (commandEffect i e).1 = finalize e) ∨
    (i = .reset ∧ (commandEffect i e).1 = reinitialise e) ∨
    (((∃ b, i = .input b) ∨ i = .inputEmpty) ∧ e.corrupted = false ∧ e.finalized = true ∧
      (commandEffect i e).1 = (raiseFault .precondition (encode i) e).1) := by
  cases i with
  | input b =>
    cases hc : e.corrupted with
    | true => exact .inl (congrArg Prod.fst (guardInput_of_corrupted hc))
    | false =>
      cases hf : e.finalized with
      | true => exact .inr (.inr (.inr (.inr ⟨.inl ⟨b, rfl⟩, rfl, rfl, congrArg Prod.fst (guardInput_of_finalized hc hf)⟩)))
      | false => exact .inr (.inl ⟨b, rfl, rfl, rfl, congrArg Prod.fst (guardInput_of_absorbing hc hf)⟩)
  | inputEmpty =>
    cases hc : e.corrupted with
    | true => exact .inl (congrArg Prod.fst (guardInput_of_corrupted hc))
    | false =>
      cases hf : e.finalized with
      | true => exact .inr (.inr (.inr (.inr ⟨.inr rfl, rfl, rfl, congrArg Prod.fst (guardInput_of_finalized hc hf)⟩)))
      | false => exact .inl (congrArg Prod.fst (guardInput_of_absorbing hc hf))
  | result =>
    cases hc : e.corrupted with
    | true => exact .inl (congrArg Prod.fst (unlessCorrupted_of_corrupted hc))
    | false =>
      have hr : (commandEffect .result e).1 = ensureFinalized e := congrArg Prod.fst (unlessCorrupted_of_not hc)
      cases hf : e.finalized with
      | true => exact .inl (hr.trans (ensureFinalized_of_finalized hf))
      | false => exact .inr (.inr (.inl ⟨rfl, rfl, rfl, hr.trans (ensureFinalized_of_not hf)⟩))
  | reset => exact .inr (.inr (.inr (.inl ⟨rfl, rfl⟩)))
  | obits => exact .inl rfl
  | obytes => exact .inl rfl
  | bsize => exact .inl rfl

/-- An engine after a word: as it was, with a byte absorbed, finalized, re-initialised, or faulted. -/
theorem wordEffect_cases (w : Cmd) (e : Engine) :
    (wordEffect w e).1 = e ∨
    (∃ b, decode w = .ok (.input b) ∧ e.corrupted = false ∧ e.finalized = false ∧ (wordEffect w e).1 = absorbByte b e) ∨
    (decode w = .ok .result ∧ e.corrupted = false ∧ e.finalized = false ∧ (wordEffect w e).1 = finalize e) ∨
    (decode w = .ok .reset ∧ (wordEffect w e).1 = reinitialise e) ∨
    (∃ f cmd, (wordEffect w e).1 = (raiseFault f cmd e).1) := by
  cases hd : decode w with
  | error why => exact .inr (.inr (.inr (.inr ⟨.illegalCommand, w, by simp [wordEffect, hd]⟩)))
  | ok i =>
    have hw : wordEffect w e = commandEffect i e := by simp [wordEffect, hd]
    rw [hw]
    rcases commandEffect_cases i e with h | ⟨b, rfl, hc, hf, h⟩ | ⟨rfl, hc, hf, h⟩ | ⟨rfl, h⟩ | ⟨-, -, -, h⟩
    · exact .inl h
    · exact .inr (.inl ⟨b, rfl, hc, hf, h⟩)
    · exact .inr (.inr (.inl ⟨rfl, hc, hf, h⟩))
    · exact .inr (.inr (.inr (.inl ⟨rfl, h⟩)))
    · exact .inr (.inr (.inr (.inr ⟨_, _, h⟩)))

/-! ### The buffer stays canonical, the algorithm stays -/

theorem absorbByte_wf {e : Engine} (h : e.buf.wf) (b : Byte) : (absorbByte b e).buf.wf := by
  rw [absorbByte_buf]; exact memWrite1_wf h _ _

theorem wordEffect_wf {e : Engine} (h : e.buf.wf) (w : Cmd) : (wordEffect w e).1.buf.wf := by
  rcases wordEffect_cases w e with hw | ⟨b, -, -, -, hw⟩ | ⟨-, -, -, hw⟩ | ⟨-, hw⟩ | ⟨f, cmd, hw⟩ <;> rw [hw]
  · exact h
  · exact absorbByte_wf h b
  · exact Memory.wf_nil
  · exact Memory.wf_nil
  · exact h

@[simp] theorem wordEffect_alg (w : Cmd) (e : Engine) : (wordEffect w e).1.alg = e.alg := by
  rcases wordEffect_cases w e with hw | ⟨b, -, -, -, hw⟩ | ⟨-, -, -, hw⟩ | ⟨-, hw⟩ | ⟨f, cmd, hw⟩ <;> rw [hw]
  · exact absorbByte_alg e b
  · exact finalize_alg e
  · exact reinitialise_alg e
  · exact raiseFault_alg f cmd e

@[simp] theorem wordEffect_porDone (w : Cmd) (e : Engine) : (wordEffect w e).1.porDone = e.porDone := by
  rcases wordEffect_cases w e with hw | ⟨b, -, -, -, hw⟩ | ⟨-, -, -, hw⟩ | ⟨-, hw⟩ | ⟨f, cmd, hw⟩ <;> rw [hw]
  · exact absorbByte_porDone e b
  · exact finalize_porDone e
  · exact reinitialise_porDone e
  · exact raiseFault_porDone f cmd e

end Sys2Proof.Machine
end

