-- ==== Sys2Proof/Laws/Message.lean ====
section
/-! SUPPORT. Blocks of bytes and their words, the schedule that grows word by word, and the fold over the blocks of a
message. A proof that two compressions agree rewrites their blocks with these lemmas; it does not unfold the rounds. -/

namespace Sys2Proof.Machine

/-! ### Blocks -/

/-- The message words of the buffer are the words of any byte function that agrees with it on 0..63. -/
theorem messageWord_eq_wordsOf {m : Memory} {byte : Nat → Byte} (h : ∀ a < 64, m.read a = byte a) :
    messageWord m = wordsOf byte := by
  funext t
  have := t.isLt
  simp only [messageWord, memRead4, wordAddr, wordsOf]
  rw [h _ (by omega), h _ (by omega), h _ (by omega), h _ (by omega)]

theorem wordsOf_congr {f g : Nat → Byte} (h : ∀ a < 64, f a = g a) : wordsOf f = wordsOf g := by
  funext t
  have := t.isLt
  simp only [wordsOf]
  rw [h _ (by omega), h _ (by omega), h _ (by omega), h _ (by omega)]

theorem blockWord_eq_wordsOf (bytes : List Byte) : blockWord bytes = wordsOf (fun a => bytes.getD a 0) := rfl

theorem getD_drop (bytes : List Byte) (k a : Nat) : (bytes.drop k).getD a 0 = bytes.getD (k + a) 0 := by
  simp [List.getD_eq_getElem?_getD, List.getElem?_drop]

/-- The first `k` blocks do not depend on what follows them. -/
theorem hashBlocks_append (k : Nat) (h : WorkingHash) (m x : List Byte) (hk : 64 * k ≤ m.length) :
    hashBlocks k h (m ++ x) = hashBlocks k h m := by
  induction k generalizing h m with
  | zero => rfl
  | succ k ih =>
    unfold hashBlocks
    have key : blockWord (m ++ x) = blockWord m := by
      rw [blockWord_eq_wordsOf, blockWord_eq_wordsOf]
      exact wordsOf_congr fun a ha => List.getD_append _ _ _ _ (by omega)
    rw [key, List.drop_append_of_le_length (by omega), ih _ _ (by simp; omega)]

/-- One more block is one more compression, at the end. -/
theorem hashBlocks_succ (k : Nat) (h : WorkingHash) (m : List Byte) :
    hashBlocks (k + 1) h m = compressHash (hashBlocks k h m) (blockWord (m.drop (64 * k))) := by
  induction k generalizing h m with
  | zero => simp [hashBlocks]
  | succ k ih =>
    conv_lhs => unfold hashBlocks
    rw [ih]
    conv_rhs => unfold hashBlocks
    rw [List.drop_drop, show 64 + 64 * k = 64 * (k + 1) by omega]

/-! ### Schedules -/

theorem growSchedule_length (next : List Word → Word) (n : Nat) (W : List Word) :
    (growSchedule next n W).length = W.length + n := by
  induction n generalizing W with
  | zero => rfl
  | succ n ih => simp [growSchedule, ih]; omega

/-- The words a schedule starts with stay. -/
theorem growSchedule_getD_of_lt (next : List Word → Word) (n : Nat) (W : List Word) (t : Nat) (h : t < W.length) :
    (growSchedule next n W).getD t 0 = W.getD t 0 := by
  induction n generalizing W with
  | zero => rfl
  | succ n ih => rw [growSchedule, ih _ (by simp; omega), List.getD_append _ _ _ _ h]

theorem growSchedule_take (next : List Word → Word) (n : Nat) {W V : List Word} (h : W <+: V) :
    (growSchedule next n V).take W.length = W := by
  induction n generalizing V with
  | zero => simpa [growSchedule] using (List.prefix_iff_eq_take.1 h).symm
  | succ n ih => rw [growSchedule]; exact ih (h.trans (List.prefix_append _ _))

/-- Each further word is `next` of the words before it. -/
theorem growSchedule_getD_of_ge (next : List Word → Word) (n : Nat) (W : List Word) (t : Nat) (h : W.length ≤ t)
    (ht : t < W.length + n) : (growSchedule next n W).getD t 0 = next ((growSchedule next n W).take t) := by
  induction n generalizing W with
  | zero => omega
  | succ n ih =>
    rw [growSchedule]
    by_cases hw : t = W.length
    · subst hw
      rw [growSchedule_getD_of_lt _ _ _ _ (by simp), growSchedule_take _ _ (List.prefix_append _ _)]
      simp [List.getD_eq_getElem?_getD]
    · exact ih _ (by simp; omega) (by simp; omega)

end Sys2Proof.Machine
end

