-- ==== Sys2Proof/Laws/PerInstr.lean ====
section
/-! SUPPORT. The families of statements made for each instruction: its fields, its well-formedness, its encoding. -/

namespace Sys2Proof.Laws.WordFields

/-- The word of a well-formed command holds its opcode in bits 15:8 and its operand byte in bits 7:0 (30_encoding.md R70). -/
def Statement (i : Instr) : Prop :=
  i.wf = true ∧ opField (encode i) = opcode i ∧ immField (encode i) = operandByte i

theorem of_instr (i : Instr) : Statement i := ⟨i.wf_eq_true, opField_encode i, immField_encode i⟩

theorem input (b : Byte) : Statement (.input b) := of_instr _
theorem inputEmpty : Statement .inputEmpty := of_instr _
theorem result : Statement .result := of_instr _
theorem reset : Statement .reset := of_instr _
theorem obits : Statement .obits := of_instr _
theorem obytes : Statement .obytes := of_instr _
theorem bsize : Statement .bsize := of_instr _

end Sys2Proof.Laws.WordFields
end

