-- ==== Sys2Proof/Tests/Slice0.lean ====
section
/-! SUPPORT. The model's own tests: the checks of well-formedness, words written out from the spec's encoding, the vectors of
spec/95_test_vectors.md, and one witness for the hypotheses of each statement. Expected values are the spec's. -/

namespace Sys2Proof.Tests
open Sys2Proof Sys2Proof.Machine

/-! ### Small states -/

/-- A CORE of one engine, with these events offered. -/
def one (e : Engine) (inbox : List Event) : State := ⟨[e], inbox, 0, []⟩

/-- The next state, if there is one. -/
def after : Host.Outcome State Fault Refusal → Option State
  | .next s    => some s
  | .fault _   => none
  | .refused _ => none

/-- The first engine and the responses of the next state. -/
def seen (o : Host.Outcome State Fault Refusal) : Option (Option Engine × List Response) :=
  (after o).map (fun s => (s.engines.head?, s.responses.map Delivery.response))

/-- The responses of the next state. -/
def answers (o : Host.Outcome State Fault Refusal) : Option (List Response) := (seen o).map Prod.snd

def freshSha1 : Engine := Engine.por .sha1
def freshSha256 : Engine := Engine.por .sha256
def finalizedEngine : Engine := { freshSha1 with finalized := true }
def corruptedEngine : Engine := { freshSha1 with corrupted := true }
def faultedEngine : Engine := { freshSha1 with finalized := true, faulted := true, faultCause := 2, faultCmd := 0x0162 }

/-- The state of program P5: `2^61 - 1` bytes absorbed. -/
def brimEngine : Engine := { freshSha1 with blockIndex := 63, lenLo := 0xFFFFFFF8, lenHi := 0xFFFFFFFF }

/-- `n` bytes 0x61 in the buffer of a SHA-1 engine that holds exactly the message `a^n`, for `n` below 64. -/
def holdsAs (n : Fin 64) : Engine :=
  { freshSha1 with
    buf := (List.range n.val).map (fun a => (a, 0x61)), blockIndex := n, lenLo := BitVec.ofNat 32 (8 * n.val) }

/-- The SHA-1 engine of program P1 after its third line. -/
def abcEngine : Engine := { freshSha1 with buf := [(0, 0x61), (1, 0x62), (2, 0x63)], blockIndex := 3, lenLo := 0x18 }

/-- The padded block of `abc` (T-SHA1-1). -/
def abcBlock (t : Fin 16) : Word := if t = 0 then 0x61626380 else if t = 15 then 0x18 else 0

/-! ### WellFormed: an ill-formed line for each check -/

theorem test_wf_refuses_missing_operand : Line.check ⟨.input, none⟩ = some .missingOperand := by decide
theorem test_wf_refuses_operand_256 : Line.check ⟨.input, some 256⟩ = some .operandOutOfRange := by decide
theorem test_wf_refuses_operand_on_result : Line.check ⟨.result, some 0⟩ = some .unexpectedOperand := by decide
theorem test_wf_accepts_operand_255 : Line.wf ⟨.input, some 255⟩ = true := by decide

/-! ### Decode: words from 30_encoding.md R72 and T-ENC-1 -/

theorem test_decode_input : decode 0x0161 = .ok (.input 0x61) ∧ decode 0x0100 = .ok (.input 0x00) ∧
    decode 0x01FF = .ok (.input 0xFF) := by decide
theorem test_decode_inputEmpty : decode 0x0200 = .ok .inputEmpty := by decide
theorem test_decode_result : decode 0x0300 = .ok .result := by decide
theorem test_decode_reset : decode 0x0400 = .ok .reset := by decide
theorem test_decode_obits : decode 0x0500 = .ok .obits := by decide
theorem test_decode_obytes : decode 0x0600 = .ok .obytes := by decide
theorem test_decode_bsize : decode 0x0700 = .ok .bsize := by decide
theorem test_decode_illegal_opcodes : decode 0x0000 = .error (.opcode 0x00) ∧ decode 0x0800 = .error (.opcode 0x08) ∧
    decode 0xFF00 = .error (.opcode 0xFF) := by decide
theorem test_decode_illegal_operands : decode 0x0301 = .error (.reservedOperand 0x03 0x01) ∧
    decode 0x0280 = .error (.reservedOperand 0x02 0x80) := by decide
theorem test_decode_table_word : decodeTableWord 16 0x0161 = some (.input 0x61) ∧ decodeTableWord 8 0x61 = none := by
  decide

/-! ### Mixing primitives: T-MIX-1, T-MIX-3, T-MIX-4 -/

theorem test_mix_boolean : choice 0x12345678 0x9ABCDEF0 0x0FEDCBA9 = 0x1FFDDFF1 ∧
    majority 0x12345678 0x9ABCDEF0 0x0FEDCBA9 = 0x1ABCDEF8 ∧
    parity 0x12345678 0x9ABCDEF0 0x0FEDCBA9 = 0x87654321 := by decide
theorem test_mix_sigma : smallSigma0 0x6A09E667 = 0xBA0CF582 ∧ smallSigma1 0x6A09E667 = 0xCFE5DA3C ∧
    bigSigma0 0x6A09E667 = 0xCE20B47E ∧ bigSigma1 0x6A09E667 = 0x55B65510 := by decide
theorem test_mix_rotate_shift_add : rotl32 0x6A09E667 30 = 0xDA827999 ∧ rotr32 0x00000001 7 = 0x02000000 ∧
    shr32 0xFFFFFFFF 3 = 0x1FFFFFFF ∧ add32 0x67452301 0xEFCDAB89 = 0x5712CE8A := by decide

/-! ### Compression: T-SHA1-1 to T-SHA1-4, T-SHA256-1 to T-SHA256-3 -/

theorem test_sha1_schedule : (sha1Schedule abcBlock).getD 16 0 = 0xC2C4C700 ∧
    (sha1Schedule abcBlock).getD 79 0 = 0x822E0879 := by decide +kernel
theorem test_sha1_rounds : sha1Rounds (sha1Schedule abcBlock) (sha1Start ivSha1) 61 =
    ⟨0xD756C147, 0x3F52DE5A, 0x4275E17F, 0x3498BFD4, 0xF211824F⟩ := by decide +kernel
theorem test_sha1_zero_block : sha1Compress ivSha1 (fun _ => 0) =
    #v[0x92B404E5, 0x56588CED, 0x6C1ACD4E, 0xBF053F68, 0x09F73A93] := by decide +kernel
theorem test_sha256_schedule : (sha256Schedule abcBlock).getD 17 0 = 0x000F0000 ∧
    (sha256Schedule abcBlock).getD 63 0 = 0x12B1EDEB := by decide +kernel
theorem test_sha256_rounds : sha256Rounds (sha256Schedule abcBlock) (sha256Start ivSha256) 3 =
    ⟨0xC8C347A7, 0x5A6AD9AD, 0x5D6AEBCD, 0x6A09E667, 0xF92939EB, 0x78CE7989, 0xFA2A4622, 0x510E527F⟩ := by decide +kernel
theorem test_sha256_abc : sha256Compress ivSha256 abcBlock =
    #v[0xBA7816BF, 0x8F01CFEA, 0x414140DE, 0x5DAE2223, 0xB00361A3, 0x96177A9C, 0xB410FF61, 0xF20015AD] := by
  decide +kernel

/-! ### Commands: T-CMD, T-LEN, T-PAD, programs P1, P2, P4, P5 -/

/-- T-CMD-1. -/
theorem test_input_stores_first_byte : seen (exec (.input 0x61) (one freshSha1 [])) = some (some
    { freshSha1 with buf := [(0, 0x61)], blockIndex := 1, lenLo := 8 }, [⟨.ok, []⟩]) := by decide
/-- T-LEN-1: the carry into the high half, and one compression of the all-zero block. -/
theorem test_input_carries_and_compresses :
    seen (exec (.input 0x00) (one { freshSha1 with blockIndex := 63, lenLo := 0xFFFFFFF8 } [])) = some (some
      { freshSha1 with
        H := .sha1 #v[0x92B404E5, 0x56588CED, 0x6C1ACD4E, 0xBF053F68, 0x09F73A93], lenHi := 1 }, [⟨.ok, []⟩]) := by
  decide +kernel
/-- T-CMD-5. -/
theorem test_inputEmpty_after_result_faults : seen (exec .inputEmpty (one finalizedEngine [])) = some (some
    { finalizedEngine with faulted := true, faultCause := 2, faultCmd := 0x0200 }, [⟨.faultPrecondition, []⟩]) := by decide
/-- T-CMD-2. -/
theorem test_inputEmpty_absorbing : seen (exec .inputEmpty (one abcEngine [])) = some (some abcEngine, [⟨.ok, []⟩]) := by
  decide
/-- P1, line 4 (V1). -/
theorem test_result_sha1_abc : answers (exec .result (one abcEngine [])) = some [⟨.ok,
    [0xa9, 0x99, 0x3e, 0x36, 0x47, 0x06, 0x81, 0x6a, 0xba, 0x3e, 0x25, 0x71, 0x78, 0x50, 0xc2, 0x6c, 0x9c, 0xd0, 0xd8,
     0x9d]⟩] := by decide +kernel
/-- P2, line 1 (V3). -/
theorem test_result_sha256_empty : answers (exec .result (one freshSha256 [])) = some [⟨.ok,
    [0xe3, 0xb0, 0xc4, 0x42, 0x98, 0xfc, 0x1c, 0x14, 0x9a, 0xfb, 0xf4, 0xc8, 0x99, 0x6f, 0xb9, 0x24, 0x27, 0xae, 0x41, 0xe4,
     0x64, 0x9b, 0x93, 0x4c, 0xa4, 0x95, 0x99, 0x1b, 0x78, 0x52, 0xb8, 0x55]⟩] := by decide +kernel
/-- T-DIG, n = 55: the one-block side of R145 (V-C2). -/
theorem test_finalize_a55 : (finalize (holdsAs 55)).H =
    .sha1 #v[0xc1c8bbdc, 0x22796e28, 0xc0e15163, 0xd20899b6, 0x5621d65a] := by decide +kernel
/-- T-DIG, n = 56: the two-block side of R145. -/
theorem test_finalize_a56 : (finalize (holdsAs 56)).H =
    .sha1 #v[0xc2db330f, 0x6083854c, 0x99d4b5bf, 0xb6e8f29f, 0x201be699] := by decide +kernel
/-- T-DIG, n = 56, from the message alone. -/
theorem test_message_digest_a56 : hex (messageDigest .sha1 (List.replicate 56 0x61)) =
    ['c', '2', 'd', 'b', '3', '3', '0', 'f', '6', '0', '8', '3', '8', '5', '4', 'c', '9', '9', 'd', '4', 'b', '5', 'b', 'f',
     'b', '6', 'e', '8', 'f', '2', '9', 'f', '2', '0', '1', 'b', 'e', '6', '9', '9'] := by decide +kernel
/-- T-CMD-8. -/
theorem test_reset_from_corrupted : seen (exec .reset (one { corruptedEngine with buf := [(7, 0x41)] } [])) =
    some (some freshSha1, [⟨.ok, []⟩]) := by decide
/-- T-CMD-6. -/
theorem test_queries_sha1 : answers (exec .obits (one corruptedEngine [])) = some [⟨.ok, [0x00, 0xA0]⟩] ∧
    answers (exec .obytes (one corruptedEngine [])) = some [⟨.ok, [0x00, 0x14]⟩] ∧
    answers (exec .bsize (one corruptedEngine [])) = some [⟨.ok, [0x00, 0x40]⟩] := by decide
theorem test_queries_sha256 : answers (exec .obits (one freshSha256 [])) = some [⟨.ok, [0x01, 0x00]⟩] ∧
    answers (exec .obytes (one freshSha256 [])) = some [⟨.ok, [0x00, 0x20]⟩] ∧
    answers (exec .bsize (one freshSha256 [])) = some [⟨.ok, [0x00, 0x40]⟩] := by decide

/-! ### Steps -/

/-- P6, line 2. -/
theorem test_step_illegal_word : seen (step (one freshSha256 [⟨0, .command 0x0301⟩])) = some (some
    { freshSha256 with faulted := true, faultCause := 3, faultCmd := 0x0301 }, [⟨.faultIllegalCommand, []⟩]) := by decide
/-- T-CMD-10. -/
theorem test_step_halted_engine : seen (step (one faultedEngine [⟨0, .command 0x0400⟩])) =
    some (some faultedEngine, []) := by decide
/-- 70_reset_and_hazards.md R260. -/
theorem test_step_power_on_reset : seen (step (one faultedEngine [⟨0, .por⟩])) = some (some freshSha1, []) := by decide
/-- 70_reset_and_hazards.md R263. -/
theorem test_step_before_power_on_reset :
    seen (step { State.beforePor [.sha1] with inbox := [⟨0, .command 0x0161⟩] }) =
      some (some (Engine.beforePor .sha1), []) := by decide
/-- A word placed for the next step is run by it, on the first engine of the CORE after reset. -/
theorem test_withFetchWord_runs : (after (step (State.reset.withFetchWord 16 0x0161))).map State.engines = some
    [{ freshSha1 with buf := [(0, 0x61)], blockIndex := 1, lenLo := 8 }, freshSha256] := by decide
/-- P5, lines 1 and 2. -/
theorem test_overflow_answers_ok_then_error :
    (after (step (one brimEngine [⟨0, .command 0x0100⟩, ⟨0, .command 0x0300⟩]))).bind (fun s => answers (step s)) =
      some [⟨.ok, []⟩, ⟨.errInputTooLong, []⟩] := by decide +kernel

/-! ### Host side -/

theorem test_assemble_line : assemble [['I', 'N', 'P', 'U', 'T', ' ', '0', 'x', '6', '1', ' ', ';', 'a'], [';'],
    ['R', 'E', 'S', 'U', 'L', 'T']] = .ok [.input 0x61, .result] := by decide
theorem test_hex : hex [0xa9, 0x09] = ['a', '9', '0', '9'] := by decide
theorem test_inputStr : inputStr ['a', 'b'] = [.input 0x61, .input 0x62] ∧ inputStr [] = [.inputEmpty] := by decide

/-! ### Witnesses: the hypotheses of each statement can be met -/

theorem fresh_inv : freshSha1.Inv :=
  ⟨by decide, by decide, by decide, by decide, by decide, by decide⟩
theorem brim_inv : brimEngine.Inv :=
  ⟨by decide, by decide, by decide, by decide, by decide, by decide⟩
theorem finalized_inv : finalizedEngine.Inv :=
  ⟨by decide, by decide, by decide, by decide, by decide, by decide⟩
theorem corrupted_inv : corruptedEngine.Inv :=
  ⟨by decide, by decide, by decide, by decide, by decide, by decide⟩

theorem one_inv {e : Engine} (h : e.Inv) (inbox : List Event) : (one e inbox).Inv := fun _ he =>
  List.mem_singleton.1 he ▸ h

theorem witness_DecodeAndEncodeAgree : (Instr.input 0xFF).wf = true ∧ decode 0x0100 = .ok (.input 0x00) ∧
    decode 0x0700 = .ok .bsize := by decide
theorem witness_IllegalWordsAreExactlyTheListed : illegalWord 0x00FF ∧ illegalWord 0x0800 ∧ illegalWord 0xFF00 ∧
    illegalWord 0x0201 ∧ illegalWord 0x07FF ∧ ¬ illegalWord 0x0100 ∧ ¬ illegalWord 0x01FF ∧ ¬ illegalWord 0x0700 := by decide
theorem witness_AssemblerSpellsEveryCommandOnce : assembleLine ⟨.input, some 255⟩ = .ok (.input 0xFF) ∧
    assembleLine ⟨.input, some 256⟩ = .error .operandOutOfRange ∧ assembleLine ⟨.input, none⟩ = .error .missingOperand ∧
    assembleLine ⟨.bsize, some 0⟩ = .error .unexpectedOperand := by decide
theorem witness_ChunkingMakesNoDifference : ∃ chunks : List (List Byte), chunks ≠ [] ∧ ∀ c ∈ chunks, c ≠ [] :=
  ⟨[[1], [2, 3]], by decide⟩
theorem witness_StepRunsTheDecodedCommand : (one freshSha1 [⟨0, .command 0x0161⟩]).inbox = ⟨0, .command 0x0161⟩ :: [] ∧
    decode 0x0161 = .ok (.input 0x61) := by decide
theorem witness_UnacceptedCommandChangesNothing :
    (faultedEngine.faulted = true ∧ (one faultedEngine []).engines[(one faultedEngine []).port]? = some faultedEngine) ∧
    ((Engine.beforePor .sha1).porDone = false ∧
      (one (Engine.beforePor .sha1) [⟨0, .command 0x0800⟩]).inbox = ⟨0, .command 0x0800⟩ :: [] ∧
      (one (Engine.beforePor .sha1) [⟨0, .command 0x0800⟩]).engines[0]? = some (Engine.beforePor .sha1)) := by decide
theorem witness_EveryStepCompletes : (one freshSha1 [⟨0, .command 0x0300⟩, ⟨0, .por⟩]).portsExist := by
  unfold State.portsExist; decide
theorem witness_OnlyAMissingEngineStopsACommand : (one freshSha1 []).port < (one freshSha1 []).engines.length ∧
    (State.por []).engines.length ≤ (State.por []).port := by decide
theorem witness_OneResponsePerAcceptedCommand : (∃ t, step (one freshSha1 [⟨0, .command 0x0161⟩]) = .next t) ∧
    (∃ t, step (one faultedEngine [⟨0, .command 0x0161⟩]) = .next t) ∧ (∃ t, step (one faultedEngine [⟨0, .por⟩]) = .next t) ∧
    ∃ t, step (one freshSha1 []) = .next t :=
  ⟨⟨_, rfl⟩, ⟨_, rfl⟩, ⟨_, rfl⟩, ⟨_, rfl⟩⟩

/-- An engine that serves, in each of the modes that accept commands. -/
theorem witness_serves : (one freshSha1 []).serves freshSha1 ∧ (one freshSha256 []).serves freshSha256 ∧
    (one finalizedEngine []).serves finalizedEngine ∧ (one corruptedEngine []).serves corruptedEngine :=
  ⟨⟨rfl, rfl, rfl⟩, ⟨rfl, rfl, rfl⟩, ⟨rfl, rfl, rfl⟩, ⟨rfl, rfl, rfl⟩⟩
theorem witness_ResponseDataByCommandAndStatus : (one freshSha256 []).serves freshSha256 := ⟨rfl, rfl, rfl⟩
/-- One state for each outcome of R237, in its order. -/
theorem witness_OutcomeByPriority :
    (faultedEngine.porDone = true ∧ faultedEngine.faulted = true) ∧
    (corruptedEngine.porDone = true ∧ corruptedEngine.faulted = false ∧ illegalWord 0x0301) ∧
    (corruptedEngine.corrupted = true ∧ ¬ illegalWord 0x0300) ∧
    (finalizedEngine.porDone = true ∧ finalizedEngine.faulted = false ∧ finalizedEngine.corrupted = false ∧
      finalizedEngine.finalized = true ∧ ¬ illegalWord 0x0200) ∧
    (one finalizedEngine [⟨0, .command 0x0300⟩]).inbox = ⟨0, .command 0x0300⟩ :: [] ∧
    (one finalizedEngine [⟨0, .command 0x0300⟩]).engines[0]? = some finalizedEngine := by decide
theorem witness_ResetValues : (one faultedEngine [⟨0, .por⟩]).inbox = ⟨0, .por⟩ :: [] ∧
    (one faultedEngine [⟨0, .por⟩]).engines[0]? = some faultedEngine ∧
    (one corruptedEngine []).serves corruptedEngine := ⟨rfl, rfl, rfl, rfl, rfl⟩
theorem witness_PowerOnResetIsSilentAndLocal : (one faultedEngine [⟨0, .por⟩]).inbox = ⟨0, .por⟩ :: [] ∧
    (one faultedEngine [⟨0, .por⟩]).engines[0]? = some faultedEngine := ⟨rfl, rfl⟩
theorem witness_ResetCommandReinitialises : (one corruptedEngine []).serves corruptedEngine ∧
    ((one faultedEngine []).engines[(one faultedEngine []).port]? = some faultedEngine ∧ faultedEngine.mode = .faulted) ∧
    (one freshSha1 []).serves (Engine.por .sha1) := ⟨⟨rfl, rfl, rfl⟩, ⟨rfl, rfl⟩, rfl, rfl, rfl⟩
theorem witness_ResetEqualsPowerOnReset : (one corruptedEngine []).serves corruptedEngine := ⟨rfl, rfl, rfl⟩
theorem witness_StepKeepsTheInvariants : (one brimEngine [⟨0, .command 0x01FF⟩]).Inv ∧
    ∃ t, step (one brimEngine [⟨0, .command 0x01FF⟩]) = .next t := ⟨one_inv brim_inv _, _, rfl⟩
theorem witness_EnginesShareNothing : ∃ t, step (State.reset.withFetchWord 16 0x0161) = .next t := ⟨_, rfl⟩
theorem witness_AnEngineSeesOnlyItself :
    (State.reset.withFetchWord 16 0x0300).inbox.head? = some ⟨0, .command 0x0300⟩ ∧
    (one freshSha1 [⟨0, .command 0x0300⟩, ⟨0, .por⟩]).inbox.head? = some ⟨0, .command 0x0300⟩ ∧
    (State.reset.withFetchWord 16 0x0300).engines[0]? = (one freshSha1 [⟨0, .command 0x0300⟩, ⟨0, .por⟩]).engines[0]? ∧
    ∃ t, step (State.reset.withFetchWord 16 0x0300) = .next t := ⟨rfl, rfl, rfl, _, rfl⟩
theorem witness_OnlyPowerOnResetLeavesAFault : faultedEngine.faulted = true ∧
    (one faultedEngine []).engines[(one faultedEngine []).port]? = some faultedEngine ∧
    (∃ t, step (one faultedEngine [⟨0, .command 0x0400⟩]) = .next t) ∧
    (one faultedEngine [⟨0, .command 0x0400⟩]).inbox.head? ≠ some ⟨0, .por⟩ ∧
    (one faultedEngine [⟨0, .por⟩]).inbox = ⟨0, .por⟩ :: [] := ⟨rfl, rfl, ⟨_, rfl⟩, by decide, rfl⟩
theorem witness_WritersOfHashFlagsAndRecord : ∃ t e', step (one finalizedEngine [⟨0, .command 0x0162⟩]) = .next t ∧
    t.engines[0]? = some e' ∧ e'.faulted ≠ finalizedEngine.faulted ∧ EventKind.command 0x0162 ≠ .por :=
  ⟨_, _, rfl, rfl, by decide, by decide⟩
theorem witness_WritersOfHashFlagsAndRecord_reset : ∃ t e', step (one corruptedEngine [⟨0, .command 0x0400⟩]) = .next t ∧
    t.engines[0]? = some e' ∧ e'.corrupted ≠ corruptedEngine.corrupted := ⟨_, _, rfl, rfl, by decide⟩
theorem witness_WritersOfHashFlagsAndRecord_result : ∃ t e', step (one freshSha1 [⟨0, .command 0x0300⟩]) = .next t ∧
    t.engines[0]? = some e' ∧ e'.finalized ≠ freshSha1.finalized ∧ e'.H ≠ freshSha1.H :=
  ⟨_, _, rfl, rfl, by decide, by decide +kernel⟩
theorem witness_ModeTransitionTable : ((one freshSha1 []).serves freshSha1 ∧ freshSha1.Inv) ∧
    ((one brimEngine []).serves brimEngine ∧ brimEngine.Inv ∧ brimEngine.bitLength = 0xFFFFFFFFFFFFFFF8) ∧
    ((one finalizedEngine []).serves finalizedEngine ∧ finalizedEngine.Inv) ∧
    ((one corruptedEngine []).serves corruptedEngine ∧ corruptedEngine.Inv) ∧ illegalWord 0x0000 ∧
    ((one faultedEngine []).engines[0]? = some faultedEngine ∧ faultedEngine.mode = .faulted) :=
  ⟨⟨⟨rfl, rfl, rfl⟩, fresh_inv⟩, ⟨⟨rfl, rfl, rfl⟩, brim_inv, rfl⟩, ⟨⟨rfl, rfl, rfl⟩, finalized_inv⟩,
    ⟨⟨rfl, rfl, rfl⟩, corrupted_inv⟩, by decide, rfl, rfl⟩
theorem witness_CorruptedEngineAnswersTooLong : (one corruptedEngine []).serves corruptedEngine ∧
    corruptedEngine.corrupted = true := ⟨⟨rfl, rfl, rfl⟩, rfl⟩
theorem witness_InputAfterResultFaults : (one finalizedEngine []).serves finalizedEngine ∧
    finalizedEngine.corrupted = false ∧ finalizedEngine.finalized = true := ⟨⟨rfl, rfl, rfl⟩, rfl, rfl⟩
theorem witness_IllegalWordFaults : (one corruptedEngine [⟨0, .command 0x0800⟩]).inbox = ⟨0, .command 0x0800⟩ :: [] ∧
    (one corruptedEngine [⟨0, .command 0x0800⟩]).engines[0]? = some corruptedEngine ∧ corruptedEngine.porDone = true ∧
    corruptedEngine.faulted = false ∧ illegalWord 0x0800 := ⟨rfl, rfl, rfl, rfl, by decide⟩
theorem witness_InputEmptyIsANoOp : (one abcEngine []).serves abcEngine ∧ abcEngine.corrupted = false ∧
    abcEngine.finalized = false := ⟨⟨rfl, rfl, rfl⟩, rfl, rfl⟩
/-- The lowest and the highest index that the statement covers. -/
theorem witness_InputStoresOneByte : ((one freshSha1 []).serves freshSha1 ∧ freshSha1.corrupted = false ∧
      freshSha1.finalized = false ∧ freshSha1.buf.wf ∧ freshSha1.lenLo.toNat % 8 = 0 ∧ freshSha1.blockIndex.val < 63) ∧
    ((one (holdsAs 62) []).serves (holdsAs 62) ∧ (holdsAs 62).corrupted = false ∧ (holdsAs 62).finalized = false ∧
      (holdsAs 62).buf.wf ∧ (holdsAs 62).lenLo.toNat % 8 = 0 ∧ (holdsAs 62).blockIndex.val < 63) :=
  ⟨⟨⟨rfl, rfl, rfl⟩, by decide⟩, ⟨rfl, rfl, rfl⟩, by decide +kernel⟩
theorem witness_InputThatFillsTheBlockCompresses : (one (holdsAs 63) []).serves (holdsAs 63) ∧
    (holdsAs 63).corrupted = false ∧ (holdsAs 63).finalized = false ∧ (holdsAs 63).buf.wf ∧
    (holdsAs 63).lenLo.toNat % 8 = 0 ∧ (holdsAs 63).blockIndex.val = 63 := ⟨⟨rfl, rfl, rfl⟩, by decide +kernel⟩
theorem witness_OverflowingByteCorrupts : (one brimEngine []).serves brimEngine ∧ brimEngine.Inv ∧
    brimEngine.mode = .absorbing ∧ brimEngine.bitLength = 0xFFFFFFFFFFFFFFF8 := ⟨⟨rfl, rfl, rfl⟩, brim_inv, rfl, rfl⟩
theorem witness_FirstResultPadsWithinTheBlock : ((one freshSha256 []).serves freshSha256 ∧ freshSha256.buf.wf ∧
      freshSha256.blockIndex.val ≤ 55) ∧
    ((one (holdsAs 55) []).serves (holdsAs 55) ∧ (holdsAs 55).corrupted = false ∧ (holdsAs 55).finalized = false ∧
      (holdsAs 55).buf.wf ∧ (holdsAs 55).blockIndex.val ≤ 55) :=
  ⟨⟨⟨rfl, rfl, rfl⟩, by decide⟩, ⟨rfl, rfl, rfl⟩, by decide +kernel⟩
theorem witness_FirstResultPadsOverTwoBlocks : ((one (holdsAs 56) []).serves (holdsAs 56) ∧
      (holdsAs 56).corrupted = false ∧ (holdsAs 56).finalized = false ∧ (holdsAs 56).buf.wf ∧
      56 ≤ (holdsAs 56).blockIndex.val) ∧
    ((one (holdsAs 63) []).serves (holdsAs 63) ∧ (holdsAs 63).corrupted = false ∧ (holdsAs 63).finalized = false ∧
      (holdsAs 63).buf.wf ∧ 56 ≤ (holdsAs 63).blockIndex.val) :=
  ⟨⟨⟨rfl, rfl, rfl⟩, by decide +kernel⟩, ⟨rfl, rfl, rfl⟩, by decide +kernel⟩
theorem witness_ResultIsIdempotent : ((one abcEngine []).serves abcEngine ∧ abcEngine.corrupted = false) ∧
    ((one finalizedEngine []).serves finalizedEngine ∧ finalizedEngine.corrupted = false ∧
      finalizedEngine.finalized = true) := ⟨⟨⟨rfl, rfl, rfl⟩, rfl⟩, ⟨rfl, rfl, rfl⟩, rfl, rfl⟩
theorem witness_DigestIsHashBigEndian : (initialHash .sha1).words[4]? = some 0xC3D2E1F0 ∧
    (initialHash .sha256).words[7]? = some 0x5BE0CD19 := by decide
theorem witness_QueriesAnswerTheConstants : (one finalizedEngine []).serves finalizedEngine ∧
    (one freshSha256 []).serves freshSha256 := ⟨⟨rfl, rfl, rfl⟩, rfl, rfl, rfl⟩
/-- A message of 63 bytes: the byte after it fills the block. -/
theorem holds_a63 : (holdsAs 63).Holds (List.replicate 63 0x61) :=
  ⟨rfl, by decide +kernel, by decide, by decide, by decide⟩
theorem witness_InputExtendsTheMessage : (one (holdsAs 63) []).serves (holdsAs 63) ∧
    (holdsAs 63).Holds (List.replicate 63 0x61) ∧ (holdsAs 63).buf.wf ∧
    (List.replicate 63 (0x61 : Byte)).length + 1 < 2 ^ 61 :=
  ⟨⟨rfl, rfl, rfl⟩, holds_a63, by decide +kernel, by decide⟩
theorem witness_ResetHoldsTheEmptyMessage : (one finalizedEngine []).serves finalizedEngine := ⟨rfl, rfl, rfl⟩
theorem witness_ResultIsTheDigestOfTheMessage : (one (holdsAs 63) []).serves (holdsAs 63) ∧
    (holdsAs 63).Holds (List.replicate 63 0x61) ∧ (holdsAs 63).buf.wf ∧
    (List.replicate 63 (0x61 : Byte)).length < 2 ^ 61 := ⟨⟨rfl, rfl, rfl⟩, holds_a63, by decide +kernel, by decide⟩
theorem witness_StaleBytesAreNeverObserved : (one abcEngine []).serves abcEngine ∧
    abcEngine.sameButStale { abcEngine with buf := abcEngine.buf ++ [(3, 0x64), (63, 0x65)] } ∧ abcEngine.buf.wf ∧
    Memory.wf (abcEngine.buf ++ [(3, 0x64), (63, 0x65)]) := ⟨⟨rfl, rfl, rfl⟩, ⟨rfl, by decide⟩, by decide, by decide⟩
theorem witness_BufferAccessIsBigEndian : Memory.wf abcEngine.buf ∧ memRead4 abcEngine.buf 0 = 0x61626300 ∧
    memRead4 (memWrite4 abcEngine.buf 60 0x12345678) 60 = 0x12345678 ∧ memRead1 (memWrite1 abcEngine.buf 63 0x80) 63 = 0x80 :=
  by decide
theorem witness_RotationsAndShiftBitByBit : (1 ≤ 1 ∧ 1 ≤ 31 ∧ rotl32 0x80000000 1 = 0x00000001) ∧
    (1 ≤ 31 ∧ 31 ≤ 31 ∧ rotr32 0x80000000 31 = 0x00000001) := by decide
theorem witness_BooleanFunctionsBitByBit : 31 < 32 ∧ (choice 0x80000000 0x80000000 0).getLsbD 31 = true := by decide
theorem witness_SigmaFunctionsBitByBit : 31 < 32 ∧ (smallSigma1 0xFFFFFFFF).getLsbD 22 = false ∧
    (smallSigma1 0xFFFFFFFF).getLsbD 21 = true := by decide
/-- Both ends of each range of rounds. -/
theorem witness_Sha1ConstantsAndFunctions : sha1K 19 = 0x5A827999 ∧ sha1K 20 = 0x6ED9EBA1 ∧ sha1K 39 = 0x6ED9EBA1 ∧
    sha1K 40 = 0x8F1BBCDC ∧ sha1K 59 = 0x8F1BBCDC ∧ sha1K 60 = 0xCA62C1D6 ∧ sha1K 79 = 0xCA62C1D6 := by decide
theorem witness_ScheduleRecurrence : ∃ W V : Nat → Word, (∀ t, W t = (sha1Schedule abcBlock).getD t 0) ∧
    (∀ t, V t = (sha256Schedule abcBlock).getD t 0) := ⟨_, _, fun _ => rfl, fun _ => rfl⟩
theorem witness_Sha256ConstantsAreRootsOfPrimes : ∃ primes, primes = (List.range 312).filter Nat.Prime := ⟨_, rfl⟩

end Sys2Proof.Tests
end

/-! SUPPORT. The statements on the scope of the CORE: one response for each accepted command, and the digest of the
message that an engine holds. Between them stand the length footer, the padded buffer and the padded
message, each byte by byte. -/

namespace Sys2Proof.Machine

/-! ### One response for each accepted command -/

/-- Settles O10, by the cases of `step_next`: a step that waits, a power-on reset, an accepted word, a word that
lapses. -/
theorem oneResponsePerAcceptedCommand : Obligations.OneResponsePerAcceptedCommand := by
  intro s t h
  rcases step_next h with ⟨hi, rfl⟩ | ⟨p, kind, rest, e, hi, hp, hcase⟩
  · exact .inr ⟨rfl, by simp [hi]⟩
  · rcases hcase with ⟨rfl, rfl⟩ | ⟨w, rfl, ha, rfl⟩ | ⟨w, rfl, ha, rfl⟩
    · exact .inr ⟨rfl, by simp [hi]⟩
    · obtain ⟨hpor, hfault⟩ := e.accepts_eq_true_iff.1 ha
      exact .inl ⟨p, w, rest, e, _, hi, hp, hpor, hfault, rfl, rfl⟩
    · refine .inr ⟨rfl, fun p' w' rest' e' hi' hp' => ?_⟩
      obtain ⟨⟨rfl, -⟩, -⟩ : (p = p' ∧ w = w') ∧ rest = rest' := by simpa [hi] using hi'
      obtain rfl : e = e' := Option.some.inj (hp.symm.trans hp')
      cases hpor : e.porDone with
      | false => exact .inl rfl
      | true => exact .inr (by simpa [Engine.accepts, hpor] using ha)

/-! ### The length footer (R146) -/

/-- A byte of a word that is itself a field of a longer value. -/
theorem wordByte_extractLsb' (bits : BitVec 64) (start : Nat) {j : Nat} (hj : j < 4) :
    wordByte (bits.extractLsb' start 32) j = bits.extractLsb' (start + (24 - 8 * j)) 8 := by
  apply BitVec.eq_of_getLsbD_eq
  intro k hk
  have hlt : 24 - 8 * j + k < 32 := by omega
  simp [wordByte, hk, hlt, Nat.add_assoc]

theorem wordByte_highHalf (bits : BitVec 64) {j : Nat} (hj : j < 4) :
    wordByte (bits.extractLsb' 32 32) j = footerByte bits (56 + j) := by
  rw [wordByte_extractLsb' bits 32 hj, footerByte, show 32 + (24 - 8 * j) = 8 * (63 - (56 + j)) by omega]

theorem wordByte_lowHalf (bits : BitVec 64) {j : Nat} (hj : j < 4) :
    wordByte (bits.extractLsb' 0 32) j = footerByte bits (60 + j) := by
  rw [wordByte_extractLsb' bits 0 hj, footerByte, show 0 + (24 - 8 * j) = 8 * (63 - (60 + j)) by omega]

theorem Engine.bitLength_highHalf (e : Engine) : e.bitLength.extractLsb' 32 32 = e.lenHi :=
  BitVec.extractLsb'_append_eq_left

theorem Engine.bitLength_lowHalf (e : Engine) : e.bitLength.extractLsb' 0 32 = e.lenLo :=
  BitVec.extractLsb'_append_eq_right

/-- The footer as the padded message lists it. -/
theorem getD_footerBytes (bits : BitVec 64) {j : Nat} (hj : j < 8) :
    (footerBytes bits).getD j 0 = footerByte bits (56 + j) := by
  rcases Nat.lt_or_ge j 4 with h | h
  · rw [← wordByte_highHalf bits h]
    interval_cases j <;> rfl
  · obtain ⟨i, rfl⟩ := Nat.exists_eq_add_of_le h
    rw [← Nat.add_assoc, ← wordByte_lowHalf bits (j := i) (by omega)]
    have : i < 4 := by omega
    interval_cases i <;> rfl

/-- The footer as `WriteFooter` leaves it in the buffer. -/
theorem read_writeFooter {m : Memory} (hm : m.wf) (e : Engine) {a : Nat} (ha : a < 64) :
    (memWrite4 (memWrite4 m 56 e.lenHi) 60 e.lenLo).read a =
      if a < 56 then m.read a else footerByte e.bitLength a := by
  rw [read_memWrite4 (memWrite4_wf hm _ _), read_memWrite4 hm]
  change (if 60 ≤ a ∧ a < 60 + 4 then wordByte e.lenLo (a - 60)
    else if 56 ≤ a ∧ a < 56 + 4 then wordByte e.lenHi (a - 56) else m.read a) = _
  by_cases h56 : a < 56
  · rw [if_neg (by omega), if_neg (by omega), if_pos h56]
  · rw [if_neg h56]
    by_cases h60 : a < 60
    · rw [if_neg (by omega), if_pos (by omega), ← e.bitLength_highHalf, wordByte_highHalf _ (by omega),
        Nat.add_sub_cancel' (by omega)]
    · rw [if_pos (by omega), ← e.bitLength_lowHalf, wordByte_lowHalf _ (by omega), Nat.add_sub_cancel' (by omega)]

/-! ### The hash after `Finalize`, over blocks given byte by byte (R143 to R147) -/

/-- The buffer after the marker and a zero fill up to `hi`, read below `hi`. -/
theorem read_markedAndFilled {e : Engine} (hw : e.buf.wf) {hi a : Nat} (ha : a < hi) (hhi : hi ≤ 64) :
    (zeroRange (memWrite1 e.buf e.blockIndex 0x80) (e.blockIndex.val + 1) hi).read a =
      if a < e.blockIndex.val then e.buf.read a else if a = e.blockIndex.val then 0x80 else 0x00 := by
  rw [read_zeroRange (memWrite1_wf hw _ _) _ _ _ (by omega), read_memWrite1 hw]
  rcases Nat.lt_trichotomy a e.blockIndex.val with h | h | h
  · rw [if_neg (by omega), if_neg (by omega), if_pos h]
  · rw [if_neg (by omega), if_pos h, if_neg (by omega), if_pos h]
  · rw [if_pos (by omega), if_neg (by omega), if_neg (by omega)]

theorem finalize_H_oneBlock {e : Engine} (hw : e.buf.wf) (h : e.blockIndex.val ≤ 55) :
    (finalize e).H = compressHash e.H (wordsOf (fun a =>
      if a < e.blockIndex.val then e.buf.read a else if a = e.blockIndex.val then 0x80
      else if a < 56 then 0x00 else footerByte e.bitLength a)) := by
  rw [finalize_oneBlock e h]
  refine congrArg (compressHash e.H) (messageWord_eq_wordsOf fun a ha => ?_)
  rw [read_writeFooter (zeroRange_wf (memWrite1_wf hw _ _) _ _) e ha]
  by_cases h56 : a < 56
  · rw [if_pos h56, read_markedAndFilled hw h56 (by omega), if_pos h56]
  · rw [if_neg h56, if_neg (by omega), if_neg (by omega), if_neg h56]

theorem finalize_H_twoBlocks {e : Engine} (hw : e.buf.wf) (h : 56 ≤ e.blockIndex.val) :
    (finalize e).H = compressHash
      (compressHash e.H (wordsOf (fun a =>
        if a < e.blockIndex.val then e.buf.read a else if a = e.blockIndex.val then 0x80 else 0x00)))
      (wordsOf (fun a => if a < 56 then 0x00 else footerByte e.bitLength a)) := by
  have hfill := zeroRange_wf (memWrite1_wf hw e.blockIndex 0x80) (e.blockIndex.val + 1) 64
  rw [finalize_twoBlocks e h]
  refine congrArg₂ compressHash (congrArg (compressHash e.H) ?_) ?_
  · exact messageWord_eq_wordsOf fun a ha => read_markedAndFilled hw ha (by omega)
  · refine messageWord_eq_wordsOf fun a ha => ?_
    rw [read_writeFooter (zeroRange_wf hfill _ _) e ha, read_zeroRange hfill _ _ _ ha]
    by_cases h56 : a < 56
    · rw [if_pos h56, if_pos (by omega), if_pos h56]
    · rw [if_neg h56, if_neg h56]

/-! ### The padded message, byte by byte (R144 to R148) -/

theorem footerBytes_length (bits : BitVec 64) : (footerBytes bits).length = 8 := rfl

/-- The marker and the footer are 9 bytes. -/
theorem paddedMessage_length_eq_add (msg : List Byte) :
    (paddedMessage msg).length = msg.length + 9 + zeroCount msg.length := by
  simp only [paddedMessage, List.length_append, List.length_cons, List.length_replicate, footerBytes_length]
  omega

/-- The padded message fills whole blocks (R148). -/
theorem paddedMessage_length (msg : List Byte) :
    (paddedMessage msg).length = 64 * (msg.length / 64 + if msg.length % 64 ≤ 55 then 1 else 2) := by
  rw [paddedMessage_length_eq_add, zeroCount]
  split <;> omega

theorem paddedMessage_blocks (msg : List Byte) :
    (paddedMessage msg).length / 64 = msg.length / 64 + if msg.length % 64 ≤ 55 then 1 else 2 := by
  rw [paddedMessage_length, Nat.mul_div_cancel_left _ (by decide)]

/-- The bytes of the padded message: the message, the marker, zeros, and the bit length in the last 8 bytes. -/
theorem getD_paddedMessage (msg : List Byte) {i : Nat} (hi : i < (paddedMessage msg).length) :
    (paddedMessage msg).getD i 0 =
      if i < msg.length then msg.getD i 0 else if i = msg.length then 0x80
      else if i + 8 < (paddedMessage msg).length then 0x00
      else footerByte (BitVec.ofNat 64 (8 * msg.length)) (i + 64 - (paddedMessage msg).length) := by
  rw [paddedMessage_length_eq_add] at hi ⊢
  unfold paddedMessage
  by_cases hm : i < msg.length
  · rw [List.getD_append _ _ _ _ hm, if_pos hm]
  · rw [List.getD_append_right _ _ _ _ (by omega), if_neg hm]
    by_cases hk : i = msg.length
    · rw [if_pos hk, hk, Nat.sub_self, List.getD_cons_zero]
    · obtain ⟨j, rfl⟩ : ∃ j, i = msg.length + (j + 1) := ⟨i - msg.length - 1, by omega⟩
      rw [if_neg hk, Nat.add_sub_cancel_left, List.getD_cons_succ]
      by_cases hz : j < zeroCount msg.length
      · rw [List.getD_append _ _ _ _ (by simpa using hz), List.getD_replicate _ hz, if_pos (by omega)]
      · rw [List.getD_append_right _ _ _ _ (by simpa using hz), List.length_replicate,
          getD_footerBytes _ (by omega), if_neg (by omega)]
        congr 1
        omega

/-! ### The digest of the message that an engine holds (R55, R143 to R148) -/

/-- The whole blocks of a message come first in the padded message. -/
theorem hashBlocks_paddedMessage (h : WorkingHash) (msg : List Byte) :
    hashBlocks (msg.length / 64) h (paddedMessage msg) = hashBlocks (msg.length / 64) h msg :=
  hashBlocks_append _ _ _ _ (Nat.mul_div_le _ _)

/-- In the block that is not full, the buffer holds the end of the message, and the marker goes where the message ends;
`x` is what follows it. -/
theorem Engine.Holds.messageThenMarker {e : Engine} {msg : List Byte} (h : e.Holds msg) (a : Nat) (x : Byte) :
    (if a < e.blockIndex.val then e.buf.read a else if a = e.blockIndex.val then 0x80 else x) =
      if 64 * (msg.length / 64) + a < msg.length then msg.getD (64 * (msg.length / 64) + a) 0
      else if 64 * (msg.length / 64) + a = msg.length then 0x80 else x := by
  have hidx := h.index
  have hlt : 64 * (msg.length / 64) + a < msg.length ↔ a < e.blockIndex.val := by omega
  have heq : 64 * (msg.length / 64) + a = msg.length ↔ a = e.blockIndex.val := by omega
  simp only [hlt, heq]
  by_cases ha : a < e.blockIndex.val
  · rw [if_pos ha, if_pos ha, h.bytes a (hidx ▸ ha)]
  · rw [if_neg ha, if_neg ha]

/-- `Finalize` takes the hash over all blocks of the padded message. -/
theorem finalize_H_of_holds {e : Engine} {msg : List Byte} (h : e.Holds msg) (hw : e.buf.wf) :
    (finalize e).H = hashBlocks ((paddedMessage msg).length / 64) (initialHash e.alg) (paddedMessage msg) := by
  have hidx := h.index
  have hlen := paddedMessage_length msg
  rw [paddedMessage_blocks]
  by_cases h55 : msg.length % 64 ≤ 55
  · rw [if_pos h55] at hlen ⊢
    rw [finalize_H_oneBlock hw (by omega), hashBlocks_succ, hashBlocks_paddedMessage, ← h.hash, blockWord_eq_wordsOf]
    refine congrArg (compressHash e.H) (wordsOf_congr fun a ha => ?_)
    have hzero : 64 * (msg.length / 64) + a + 8 < 64 * (msg.length / 64 + 1) ↔ a < 56 := by omega
    have hfoot : 64 * (msg.length / 64) + a + 64 - 64 * (msg.length / 64 + 1) = a := by omega
    rw [getD_drop, getD_paddedMessage msg (by omega), h.messageThenMarker, hlen, hfoot, h.bits]
    simp only [hzero]
  · rw [if_neg h55] at hlen ⊢
    rw [finalize_H_twoBlocks hw (by omega), hashBlocks_succ, hashBlocks_succ, hashBlocks_paddedMessage, ← h.hash,
      blockWord_eq_wordsOf, blockWord_eq_wordsOf]
    refine congrArg₂ compressHash (congrArg (compressHash e.H) (wordsOf_congr fun a ha => ?_))
      (wordsOf_congr fun a ha => ?_)
    · have hzero : 64 * (msg.length / 64) + a + 8 < 64 * (msg.length / 64 + 2) := by omega
      rw [getD_drop, getD_paddedMessage msg (by omega), h.messageThenMarker, hlen, if_pos hzero]
    · have hpast : ¬ 64 * (msg.length / 64 + 1) + a < msg.length := by omega
      have hmark : ¬ 64 * (msg.length / 64 + 1) + a = msg.length := by omega
      have hzero : 64 * (msg.length / 64 + 1) + a + 8 < 64 * (msg.length / 64 + 2) ↔ a < 56 := by omega
      have hfoot : 64 * (msg.length / 64 + 1) + a + 64 - 64 * (msg.length / 64 + 2) = a := by omega
      rw [getD_drop, getD_paddedMessage msg (by omega), if_neg hpast, if_neg hmark, hlen, hfoot, h.bits]
      simp only [hzero]

/-- Settles O38: `RESULT` finalizes the engine, and `Finalize` takes the hash of the padded message. -/
theorem resultIsTheDigestOfTheMessage : Obligations.ResultIsTheDigestOfTheMessage := by
  intro s e msg hs hholds hw _
  obtain ⟨hf, hc⟩ := hholds.open_
  refine ⟨finalize e, ?_, Engine.mode_finalized_iff.2 ⟨?_, ?_, finalize_finalized e⟩⟩
  · rw [exec_of_serves hs, commandEffect_result_of_absorbing hc hf, finalize_H_of_holds hholds hw]
    rfl
  · rw [finalize_faulted, hs.2.2]
  · rw [finalize_corrupted, hc]

end Sys2Proof.Machine

/-! SUPPORT. The statements on the state of an engine: the invariants of R29 along every step, the writers of each field,
and the values after a reset. Before them stand the facts they share: what a word decodes to, the bit length after a byte,
and the engine of the event's port after a step. -/

namespace Sys2Proof

/-! ### What a word decodes to (R70 to R74) -/

theorem bare_eq_ok {op imm : Byte} {i j : Instr} (h : bare op imm i = .ok j) : imm = 0x00 ∧ j = i := by
  unfold bare at h
  split at h
  · cases h; exact ⟨by assumption, rfl⟩
  · cases h

theorem bare_eq_error {op imm : Byte} {i : Instr} {why : Illegal} (h : bare op imm i = .error why) : imm.toNat ≠ 0 := by
  unfold bare at h
  split at h
  · cases h
  · intro h0; exact absurd (BitVec.eq_of_toNat_eq h0) (by assumption)

/-- The fields of a word that decodes are those of the command: its opcode, and its operand or the reserved 0x00. -/
theorem fields_of_decode {w : Cmd} {i : Instr} (h : decode w = .ok i) :
    opcode i = opField w ∧ operandByte i = immField w := by
  unfold decode at h
  dsimp only at h
  split at h
  case h_1 hop => cases h; exact ⟨BitVec.eq_of_toNat_eq hop.symm, rfl⟩
  case h_8 => cases h
  all_goals
    rename_i hop
    obtain ⟨himm, rfl⟩ := bare_eq_ok h
    exact ⟨BitVec.eq_of_toNat_eq hop.symm, himm.symm⟩

/-- A word that decodes is the word of the command. -/
theorem eq_encode_of_decode {w : Cmd} {i : Instr} (h : decode w = .ok i) : w = encode i := by
  obtain ⟨hop, himm⟩ := fields_of_decode h
  rw [encode, hop, himm]
  exact (fields_append w).symm

namespace Machine

/-- A word that does not decode is in R74's list. -/
theorem illegalWord_of_decode {w : Cmd} {why : Illegal} (h : decode w = .error why) : illegalWord w := by
  unfold illegalWord
  rw [← opField_toNat, ← immField_toNat]
  unfold decode at h
  dsimp only at h
  split at h
  case h_1 => cases h
  case h_8 => simp only [imp_false] at *; omega
  all_goals
    have himm := bare_eq_error h
    omega

/-- An engine after a word, with the word written out: as it was, with a byte absorbed, finalized, re-initialised, or
faulted with this word in the record. -/
theorem wordEffect_cases_encode (w : Cmd) (e : Engine) :
    (wordEffect w e).1 = e ∨
    (∃ b, w = encode (.input b) ∧ e.corrupted = false ∧ e.finalized = false ∧ (wordEffect w e).1 = absorbByte b e) ∨
    (w = encode .result ∧ e.corrupted = false ∧ e.finalized = false ∧ (wordEffect w e).1 = finalize e) ∨
    (w = encode .reset ∧ (wordEffect w e).1 = reinitialise e) ∨
    (illegalWord w ∧ (wordEffect w e).1 = (raiseFault .illegalCommand w e).1) ∨
    ((w = encode .inputEmpty ∨ ∃ b, w = encode (.input b)) ∧ e.corrupted = false ∧ e.finalized = true ∧
      (wordEffect w e).1 = (raiseFault .precondition w e).1) := by
  cases hd : decode w with
  | error why => exact .inr (.inr (.inr (.inr (.inl ⟨illegalWord_of_decode hd, by simp [wordEffect, hd]⟩))))
  | ok i =>
    have hw : wordEffect w e = commandEffect i e := by simp [wordEffect, hd]
    rw [hw, eq_encode_of_decode hd]
    rcases commandEffect_cases i e with h | ⟨b, rfl, hc, hf, h⟩ | ⟨rfl, hc, hf, h⟩ | ⟨rfl, h⟩ | ⟨hi, hc, hf, h⟩
    · exact .inl h
    · exact .inr (.inl ⟨b, rfl, hc, hf, h⟩)
    · exact .inr (.inr (.inl ⟨rfl, hc, hf, h⟩))
    · exact .inr (.inr (.inr (.inl ⟨rfl, h⟩)))
    · refine .inr (.inr (.inr (.inr (.inr ⟨?_, hc, hf, h⟩))))
      rcases hi with ⟨b, rfl⟩ | rfl
      · exact .inr ⟨b, rfl⟩
      · exact .inl rfl

/-! ### The bit length after a byte (R142) -/

/-- The one low half that carries out exactly, leaving 0 (R142). -/
theorem add32_eight_eq_zero_iff (x : Word) : add32 x 8 = 0 ↔ x.toNat = 2 ^ 32 - 8 := by
  have := x.isLt
  rw [← BitVec.toNat_inj, add32, BitVec.toNat_add]
  change (x.toNat + 8) % 2 ^ 32 = 0 ↔ _
  omega

theorem absorbByte_bitLength {e : Engine} (hm : e.lenLo.toNat % 8 = 0) (b : Byte) :
    (absorbByte b e).bitLength = e.bitLength + 8 := by
  have hlo := e.lenLo.isLt
  have hhi := e.lenHi.isLt
  apply BitVec.eq_of_toNat_eq
  rw [BitVec.toNat_add, Engine.bitLength_toNat, Engine.bitLength_toNat, absorbByte_lenHi, absorbByte_lenLo,
    incrementLength_lenHi, incrementLength_lenLo]
  by_cases h : add32 e.lenLo 8 = 0
  · rw [if_pos h, h, add32, BitVec.toNat_add]
    rw [add32_eight_eq_zero_iff] at h
    change (e.lenHi.toNat + 1) % 2 ^ 32 * 2 ^ 32 + 0 = (_ + 8) % 2 ^ 64
    omega
  · rw [if_neg h, add32, BitVec.toNat_add]
    rw [add32_eight_eq_zero_iff] at h
    change _ + (e.lenLo.toNat + 8) % 2 ^ 32 = (_ + 8) % 2 ^ 64
    omega

/-- The byte that corrupts an engine is the one that takes both halves of the length to 0. -/
theorem absorbByte_corrupted_iff {e : Engine} (hc : e.corrupted = false) (b : Byte) :
    (absorbByte b e).corrupted = true ↔ add32 e.lenLo 8 = 0 ∧ add32 e.lenHi 1 = 0 := by
  simp [hc]

/-- The index keeps counting the bytes of the bit length, also at the byte that wraps it (R29 item 4, R142). -/
theorem absorbByte_blockIndex_eq_bitLength {e : Engine} (hm : e.lenLo.toNat % 8 = 0)
    (hi : e.blockIndex.val = e.bitLength.toNat / 8 % 64) (b : Byte) :
    (absorbByte b e).blockIndex.val = (absorbByte b e).bitLength.toNat / 8 % 64 := by
  rw [absorbByte_blockIndex_val, absorbByte_bitLength hm, BitVec.toNat_add, hi]
  have hb := e.bitLength_toNat
  change _ = (_ + 8) % 2 ^ 64 / 8 % 64
  omega

/-! ### The engine of the event's port after a step -/

/-- The step of a power-on reset (R260). -/
theorem step_por_of_some {s : State} {p : Nat} {rest : List Event} {e : Engine} (hi : s.inbox = ⟨p, .por⟩ :: rest)
    (hp : s.engines[p]? = some e) :
    step s = .next { s.taken p rest with engines := s.engines.set p (Engine.por e.alg) } :=
  (step_of_por hi).trans (powerOnReset_of_some (s := s.taken p rest) hp)

/-- A word leaves the engine of its port as it was, or that engine accepts it and takes its effect. -/
theorem engine_after_word {s t : State} {p : Nat} {w : Cmd} {rest : List Event} {e e' : Engine}
    (hi : s.inbox = ⟨p, .command w⟩ :: rest) (hp : s.engines[p]? = some e) (hstep : step s = .next t)
    (hp' : t.engines[p]? = some e') : e' = e ∨ (e.faulted = false ∧ e' = (wordEffect w e).1) := by
  rw [step_of_command hi] at hstep
  rcases onEngine_next hstep with ⟨d, ⟨hd, -, hf⟩, rfl⟩ | ⟨-, -, -, rfl⟩
  · obtain rfl : d = e := Option.some.inj (hd.symm.trans hp)
    rw [State.deliver_engines, State.taken_engines, State.taken_port,
      List.getElem?_set_self (lt_length_of_getElem? hp)] at hp'
    exact .inr ⟨hf, (Option.some.inj hp').symm⟩
  · exact .inl (Option.some.inj (hp'.symm.trans hp))

/-! ### The invariants of R29 -/

/-- An engine with an empty buffer and zero counters meets the invariants, unless both flags are set. -/
theorem Engine.inv_of_empty {e : Engine} (hbuf : e.buf = []) (hidx : e.blockIndex = 0) (hlo : e.lenLo = 0)
    (hhi : e.lenHi = 0) (hx : ¬ (e.finalized = true ∧ e.corrupted = true)) : e.Inv where
  bufWf := hbuf ▸ Memory.wf_nil
  exclusive _ := hx
  lenMultiple _ := by rw [hlo]; rfl
  absorbing _ _ := by rw [e.bitLength_toNat, hidx, hlo, hhi]; rfl
  finalizedZero _ _ := ⟨hidx, hlo, hhi, fun a _ => by rw [hbuf]; rfl⟩
  corruptedZero _ _ := ⟨hidx, hlo, hhi⟩

theorem Engine.por_inv (a : Alg) : (Engine.por a).Inv := Engine.inv_of_empty rfl rfl rfl rfl (by simp [Engine.por])

theorem reinitialise_inv (e : Engine) : (reinitialise e).Inv := Engine.inv_of_empty rfl rfl rfl rfl (by simp)

theorem finalize_inv {e : Engine} (hc : e.corrupted = false) : (finalize e).Inv :=
  Engine.inv_of_empty rfl rfl rfl rfl (by simp [hc])

/-- A fault leaves every other field alone, and the mode `FAULTED` asks nothing of the counters. -/
theorem raiseFault_inv {e : Engine} (h : e.Inv) (f : Cause) (cmd : Cmd) : (raiseFault f cmd e).1.Inv where
  bufWf := h.bufWf
  exclusive := h.exclusive
  lenMultiple := h.lenMultiple
  absorbing _ hmode := nomatch (Engine.mode_absorbing_iff.1 hmode).1
  finalizedZero _ hmode := nomatch (Engine.mode_finalized_iff.1 hmode).1
  corruptedZero _ hmode := nomatch (Engine.mode_corrupted_iff.1 hmode).1

/-- A byte absorbed keeps the invariants: when it wraps the bit length and corrupts the engine, the index is 0 because it
still counts the bytes of the bit length, which is 0. -/
theorem absorbByte_inv {e : Engine} (h : e.Inv) (hpor : e.porDone = true) (hmode : e.mode = .absorbing) (b : Byte) :
    (absorbByte b e).Inv := by
  obtain ⟨-, hc, hf⟩ := Engine.mode_absorbing_iff.1 hmode
  have hm := h.lenMultiple hpor
  have hidx := absorbByte_blockIndex_eq_bitLength hm (h.absorbing hpor hmode) b
  have hopen : (absorbByte b e).finalized = false := by rw [absorbByte_finalized, hf]
  exact {
    bufWf := absorbByte_wf h.bufWf b
    exclusive := fun _ hx => nomatch hopen.symm.trans hx.1
    lenMultiple := fun _ => by
      rw [absorbByte_lenLo, incrementLength_lenLo, add32, BitVec.toNat_add]
      change (e.lenLo.toNat + 8) % 2 ^ 32 % 8 = 0
      omega
    absorbing := fun _ _ => hidx
    finalizedZero := fun _ hmode' => nomatch hopen.symm.trans (Engine.mode_finalized_iff.1 hmode').2.2
    corruptedZero := fun _ hmode' => by
      obtain ⟨hlo, hhi⟩ := (absorbByte_corrupted_iff hc b).1 (Engine.mode_corrupted_iff.1 hmode').2
      have hlo' : (absorbByte b e).lenLo = 0 := by rw [absorbByte_lenLo, incrementLength_lenLo, hlo]
      have hhi' : (absorbByte b e).lenHi = 0 := by rw [absorbByte_lenHi, incrementLength_lenHi, if_pos hlo, hhi]
      rw [Engine.bitLength_toNat, hlo', hhi'] at hidx
      exact ⟨Fin.ext hidx, hlo', hhi'⟩ }

/-- Every word keeps the invariants of an engine that accepts it. -/
theorem wordEffect_inv {e : Engine} (h : e.Inv) (ha : e.accepts = true) (w : Cmd) : (wordEffect w e).1.Inv := by
  obtain ⟨hpor, hfault⟩ := e.accepts_eq_true_iff.1 ha
  rcases wordEffect_cases w e with hw | ⟨b, -, hc, hf, hw⟩ | ⟨-, hc, -, hw⟩ | ⟨-, hw⟩ | ⟨f, cmd, hw⟩ <;> rw [hw]
  · exact h
  · exact absorbByte_inv h hpor (Engine.mode_absorbing_iff.2 ⟨hfault, hc, hf⟩) b
  · exact finalize_inv hc
  · exact reinitialise_inv e
  · exact raiseFault_inv h f cmd

/-- Writing one engine that meets its invariants keeps those of the CORE. -/
theorem State.Inv.of_set {s t : State} (h : s.Inv) {p : Nat} {e : Engine} (he : e.Inv)
    (ht : t.engines = s.engines.set p e) : t.Inv := by
  intro d hd
  rw [ht] at hd
  rcases List.mem_or_eq_of_mem_set hd with hd | rfl
  · exact h d hd
  · exact he

/-- Settles O18, by the cases of `step_next`: a step that waits, a power-on reset, an accepted word, a word that
lapses. -/
theorem stepKeepsTheInvariants : Obligations.StepKeepsTheInvariants := by
  intro s t h hstep
  rcases step_next hstep with ⟨-, rfl⟩ | ⟨p, kind, rest, e, -, hp, hcase⟩
  · exact h
  · have he : e.Inv := h e (List.mem_of_getElem? hp)
    rcases hcase with ⟨-, rfl⟩ | ⟨w, -, ha, rfl⟩ | ⟨-, -, -, rfl⟩
    · exact h.of_set (Engine.por_inv e.alg) rfl
    · exact h.of_set (wordEffect_inv he ha w) rfl
    · exact h

/-! ### The writers of H, the flags and the fault record (R21, R25 to R27) -/

section Writers
variable {w : Cmd} {e : Engine}

theorem absorbByte_H_of_ne {b : Byte} (h : e.blockIndex.val ≠ 63) : (absorbByte b e).H = e.H := by
  have := e.blockIndex.isLt
  rw [absorbByte_of_lt e b (by omega), incrementLength_H]

theorem wordEffect_writes_H (hfault : e.faulted = false) (h : (wordEffect w e).1.H ≠ e.H) :
    w = encode .reset ∨ (e.mode = .absorbing ∧
      (w = encode .result ∨ ∃ b, w = encode (.input b) ∧ e.blockIndex.val = 63)) := by
  rcases wordEffect_cases_encode w e with
    hw | ⟨b, hi, hc, hf, hw⟩ | ⟨hi, hc, hf, -⟩ | ⟨hi, -⟩ | ⟨-, hw⟩ | ⟨-, -, -, hw⟩
  · exact absurd (congrArg Engine.H hw) h
  · rw [hw] at h
    have hlast : e.blockIndex.val = 63 := by_contra fun hne => h (absorbByte_H_of_ne hne)
    exact .inr ⟨Engine.mode_absorbing_iff.2 ⟨hfault, hc, hf⟩, .inr ⟨b, hi, hlast⟩⟩
  · exact .inr ⟨Engine.mode_absorbing_iff.2 ⟨hfault, hc, hf⟩, .inl hi⟩
  · exact .inl hi
  · exact absurd (congrArg Engine.H hw) h
  · exact absurd (congrArg Engine.H hw) h

theorem wordEffect_writes_finalized (hfault : e.faulted = false) (h : (wordEffect w e).1.finalized ≠ e.finalized) :
    ((wordEffect w e).1.finalized = true ∧ w = encode .result ∧ e.mode = .absorbing) ∨
    ((wordEffect w e).1.finalized = false ∧ w = encode .reset) := by
  rcases wordEffect_cases_encode w e with
    hw | ⟨b, -, -, -, hw⟩ | ⟨hi, hc, hf, hw⟩ | ⟨hi, hw⟩ | ⟨-, hw⟩ | ⟨-, -, -, hw⟩
  · exact absurd (congrArg Engine.finalized hw) h
  · exact absurd ((congrArg Engine.finalized hw).trans (absorbByte_finalized e b)) h
  · exact .inl ⟨congrArg Engine.finalized hw, hi, Engine.mode_absorbing_iff.2 ⟨hfault, hc, hf⟩⟩
  · exact .inr ⟨congrArg Engine.finalized hw, hi⟩
  · exact absurd (congrArg Engine.finalized hw) h
  · exact absurd (congrArg Engine.finalized hw) h

theorem wordEffect_writes_corrupted (hfault : e.faulted = false) (h : (wordEffect w e).1.corrupted ≠ e.corrupted) :
    ((wordEffect w e).1.corrupted = true ∧ e.mode = .absorbing ∧ ∃ b, w = encode (.input b)) ∨
    ((wordEffect w e).1.corrupted = false ∧ w = encode .reset) := by
  rcases wordEffect_cases_encode w e with
    hw | ⟨b, hi, hc, hf, -⟩ | ⟨-, -, -, hw⟩ | ⟨hi, hw⟩ | ⟨-, hw⟩ | ⟨-, -, -, hw⟩
  · exact absurd (congrArg Engine.corrupted hw) h
  · rw [hc, Bool.ne_false_iff] at h
    exact .inl ⟨h, Engine.mode_absorbing_iff.2 ⟨hfault, hc, hf⟩, b, hi⟩
  · exact absurd ((congrArg Engine.corrupted hw).trans (finalize_corrupted e)) h
  · exact .inr ⟨congrArg Engine.corrupted hw, hi⟩
  · exact absurd (congrArg Engine.corrupted hw) h
  · exact absurd (congrArg Engine.corrupted hw) h

/-- The fault record of an engine: whether it is halted, the cause and the word (R27). -/
def Engine.faultRecord (e : Engine) : Bool × BitVec 2 × Cmd := (e.faulted, e.faultCause, e.faultCmd)

theorem absorbByte_faultRecord (b : Byte) (e : Engine) : (absorbByte b e).faultRecord = e.faultRecord := by
  simp [Engine.faultRecord]

theorem finalize_faultRecord (e : Engine) : (finalize e).faultRecord = e.faultRecord := by
  simp [Engine.faultRecord]

theorem reinitialise_faultRecord (e : Engine) : (reinitialise e).faultRecord = e.faultRecord := rfl

theorem wordEffect_writes_faultRecord (hfault : e.faulted = false)
    (h : (wordEffect w e).1.faultRecord ≠ e.faultRecord) :
    (wordEffect w e).1.faulted = true ∧ (wordEffect w e).1.faultCmd = w ∧
    ((illegalWord w ∧ (wordEffect w e).1.faultCause = 3) ∨
     (e.mode = .finalized ∧ (wordEffect w e).1.faultCause = 2 ∧
       (w = encode .inputEmpty ∨ ∃ b, w = encode (.input b)))) := by
  rcases wordEffect_cases_encode w e with
    hw | ⟨b, -, -, -, hw⟩ | ⟨-, -, -, hw⟩ | ⟨-, hw⟩ | ⟨hill, hw⟩ | ⟨hi, hc, hf, hw⟩ <;> rw [hw] at h ⊢
  · exact absurd rfl h
  · exact absurd (absorbByte_faultRecord b e) h
  · exact absurd (finalize_faultRecord e) h
  · exact absurd (reinitialise_faultRecord e) h
  · exact ⟨rfl, rfl, .inl ⟨hill, rfl⟩⟩
  · exact ⟨rfl, rfl, .inr ⟨Engine.mode_finalized_iff.2 ⟨hfault, hc, hf⟩, rfl, hi⟩⟩

end Writers

/-- Settles O22: an engine that a word leaves as it was has no field written; for one that takes the effect of the word,
each part is the lemma on the writers of that field. -/
theorem writersOfHashFlagsAndRecord : Obligations.WritersOfHashFlagsAndRecord := by
  intro s t p kind rest e e' hi hp hstep hp' hkind
  cases kind with
  | por => exact absurd rfl hkind
  | command w =>
    simp only [EventKind.command.injEq]
    rcases engine_after_word hi hp hstep hp' with rfl | ⟨hfault, rfl⟩
    · exact ⟨fun h => absurd rfl h, fun h => absurd rfl h, fun h => absurd rfl h, fun h => absurd rfl h⟩
    · have hmode : e.mode ≠ .faulted := fun hm => Bool.false_ne_true (hfault.symm.trans (Engine.mode_faulted_iff.1 hm))
      exact ⟨wordEffect_writes_H hfault, wordEffect_writes_finalized hfault, wordEffect_writes_corrupted hfault,
        fun h => ⟨hmode, w, rfl, wordEffect_writes_faultRecord hfault h⟩⟩

/-! ### The values after a reset (R35, R260, R262) -/

/-- Settles O13: a power-on reset leaves `Engine.por`, and `RESET` leaves `reinitialise`, field by field. -/
theorem resetValues : Obligations.ResetValues := by
  refine ⟨rfl, rfl, fun s p rest e hi hp => ?_, fun s e ⟨hp, hpor, hfault⟩ => ?_⟩
  · exact ⟨_, Engine.por e.alg, step_por_of_some hi hp, List.getElem?_set_self (lt_length_of_getElem? hp), rfl,
      fun _ _ => rfl, rfl, rfl, rfl, rfl, rfl, rfl, rfl, rfl, Engine.por_alg e.alg⟩
  · exact ⟨reinitialise e, exec_of_serves ⟨hp, hpor, hfault⟩ .reset, rfl, fun _ _ => rfl, rfl, rfl, rfl, rfl, rfl, hfault,
      rfl, rfl, reinitialise_alg e⟩

theorem State.por_inv (algs : List Alg) : (State.por algs).Inv :=
  List.forall_mem_map.2 fun a _ => Engine.por_inv a

/-- Settles O17: every engine of `State.por algs` is the `Engine.por` of its algorithm. -/
theorem resetMeetsTheInvariants : Obligations.ResetMeetsTheInvariants := by
  refine ⟨fun algs => ⟨State.por_inv algs, List.forall_mem_nil _, ?_, ?_, ?_⟩, State.por_inv _⟩
  · rintro ⟨e, he, -, hfault⟩
    obtain ⟨a, -, rfl⟩ := List.mem_map.1 he
    exact nomatch hfault
  · simp [State.por, Function.comp_def]
  · exact List.forall_mem_map.2 fun _ _ => rfl

end Machine

end Sys2Proof

/-! SUPPORT. The statements on the memory of an engine: the accesses of the buffer (R51), the digest byte by byte (R54), and
the message that an engine holds (R55), empty after a reset and longer by one byte after `INPUT`. -/

namespace Sys2Proof.Machine

/-! ### Four-byte accesses of the buffer (R51) -/

theorem wordByte_memRead4 (m : Memory) (a : Fin 61) {j : Nat} (hj : j < 4) :
    wordByte (memRead4 m a) j = m.read (a + j) := by
  obtain ⟨h0, h1, h2, h3⟩ :=
    wordByte_wordOfBytes (m.read a) (m.read (a + 1)) (m.read (a + 2)) (m.read (a + 3))
  interval_cases j
  exacts [h0, h1, h2, h3]

theorem read_memWrite4_inside {m : Memory} (hm : m.wf) (a : Fin 61) (v : Word) {j : Nat} (hj : j < 4) :
    (memWrite4 m a v).read (a + j) = wordByte v j := by
  rw [read_memWrite4 hm, if_pos (by omega), Nat.add_sub_cancel_left]

theorem read_memWrite4_outside {m : Memory} (hm : m.wf) (a : Fin 61) (v : Word) {c : Nat}
    (hc : c < a.val ∨ a.val + 4 ≤ c) : (memWrite4 m a v).read c = m.read c := by
  rw [read_memWrite4 hm, if_neg (by omega)]

theorem memRead4_memWrite4 {m : Memory} (hm : m.wf) (a : Fin 61) (v : Word) : memRead4 (memWrite4 m a v) a = v := by
  have hfirst : (memWrite4 m a v).read a = wordByte v 0 := read_memWrite4_inside hm a v (j := 0) (by decide)
  rw [memRead4, hfirst, read_memWrite4_inside hm a v (by decide), read_memWrite4_inside hm a v (by decide),
    read_memWrite4_inside hm a v (by decide), wordOfBytes_wordByte]

/-- Settles O41: each part is a lemma on `memRead4`, on a byte write or on `memWrite4`. -/
theorem bufferAccessIsBigEndian : Obligations.BufferAccessIsBigEndian := by
  intro m hm
  refine ⟨fun a j hj => wordByte_memRead4 m a hj, fun a v => ?_, fun a v => ?_⟩
  · exact ⟨Memory.read_write_same hm a v, fun c hc => Memory.read_write_other hc v⟩
  · exact ⟨memRead4_memWrite4 hm a v, fun j hj => read_memWrite4_inside hm a v hj,
      fun c hc => read_memWrite4_outside hm a v hc⟩

/-! ### The digest, byte by byte (R54) -/

@[simp] theorem wordBytes_length (w : Word) : (wordBytes w).length = 4 := rfl

theorem flatMap_wordBytes_length (ws : List Word) : (ws.flatMap wordBytes).length = 4 * ws.length := by
  induction ws with
  | nil => rfl
  | cons w ws ih =>
    rw [List.flatMap_cons, List.length_append, wordBytes_length, ih, List.length_cons, Nat.mul_succ, Nat.add_comm]

/-- Each word takes four places, its most significant byte in the first. -/
theorem getElem?_flatMap_wordBytes {ws : List Word} {i j : Nat} {w : Word} (hw : ws[i]? = some w) (hj : j < 4) :
    (ws.flatMap wordBytes)[4 * i + j]? = some (wordByte w j) := by
  induction ws generalizing i with
  | nil => cases hw
  | cons x ws ih =>
    rw [List.flatMap_cons]
    cases i with
    | zero =>
      obtain rfl : x = w := by simpa using hw
      rw [List.getElem?_append_left (by simpa using hj)]
      interval_cases j <;> rfl
    | succ i =>
      rw [List.getElem?_append_right (by rw [wordBytes_length]; omega), wordBytes_length,
        show 4 * (i + 1) + j - 4 = 4 * i + j by omega]
      exact ih (by simpa using hw)

/-- `OUTPUT_BYTES` is four bytes for each word of `H` (R30). -/
theorem outputBytes_eq_four_mul_words (h : WorkingHash) : (outputBytes h.alg).toNat = 4 * h.words.length := by
  cases h <;> simp [WorkingHash.alg, WorkingHash.words, outputBytes]

/-- Settles O34, by the place of each word's bytes in the serialization. -/
theorem digestIsHashBigEndian : Obligations.DigestIsHashBigEndian := by
  intro h
  have hlen : (serialize h).length = 4 * h.words.length := flatMap_wordBytes_length h.words
  exact ⟨hlen.trans (outputBytes_eq_four_mul_words h).symm, hlen, fun i j w hw hj => getElem?_flatMap_wordBytes hw hj⟩

/-! ### The empty message (R35, R55) -/

/-- An engine with the initial hash, no valid byte, zero counters and clear flags holds the empty message, whatever its
buffer reads. -/
theorem Engine.holds_nil_of_empty {e : Engine} (hH : e.H = initialHash e.alg) (hidx : e.blockIndex = 0)
    (hlo : e.lenLo = 0) (hhi : e.lenHi = 0) (hf : e.finalized = false) (hc : e.corrupted = false) : e.Holds [] where
  hash := hH
  bytes j hj := absurd hj (Nat.not_lt_zero j)
  index := congrArg Fin.val hidx
  bits := by rw [Engine.bitLength, hlo, hhi]; rfl
  open_ := ⟨hf, hc⟩

theorem Engine.por_holds_nil (a : Alg) : (Engine.por a).Holds [] :=
  Engine.holds_nil_of_empty (congrArg initialHash (Engine.por_alg a).symm) rfl rfl rfl rfl rfl

theorem reinitialise_holds_nil (e : Engine) : (reinitialise e).Holds [] :=
  Engine.holds_nil_of_empty (congrArg initialHash (reinitialise_alg e).symm) rfl rfl rfl rfl rfl

/-- Settles O37: `RESET` leaves `reinitialise`, which holds the empty message as `Engine.por` does. -/
theorem resetHoldsTheEmptyMessage : Obligations.ResetHoldsTheEmptyMessage :=
  ⟨Engine.por_holds_nil, fun _ e hs =>
    ⟨reinitialise e, exec_of_serves hs .reset, reinitialise_holds_nil e, reinitialise_alg e⟩⟩

/-! ### One more byte of the message (R55, R140) -/

/-- The byte that corrupts an engine leaves the bit length 0 (R142). -/
theorem absorbByte_bitLength_of_corrupted {e : Engine} (hc : e.corrupted = false) {b : Byte}
    (h : (absorbByte b e).corrupted = true) : (absorbByte b e).bitLength.toNat = 0 := by
  obtain ⟨hlo, hhi⟩ := (absorbByte_corrupted_iff hc b).1 h
  rw [Engine.bitLength_toNat, absorbByte_lenHi, absorbByte_lenLo, incrementLength_lenHi, incrementLength_lenLo,
    if_pos hlo, hlo, hhi]
  rfl

theorem absorbByte_H_of_last {e : Engine} (h : e.blockIndex.val = 63) (b : Byte) :
    (absorbByte b e).H = compressHash e.H (messageWord (absorbByte b e).buf) := by
  rw [absorbByte_buf, absorbByte_of_last e b h]

namespace Engine.Holds

variable {e : Engine} {msg : List Byte} (h : e.Holds msg)
include h

/-- A message is whole bytes, so the low half of its bit length is a multiple of 8 (R29 item 3). -/
theorem lenLo_mod : e.lenLo.toNat % 8 = 0 := by
  have hbits := congrArg BitVec.toNat h.bits
  rw [e.bitLength_toNat, BitVec.toNat_ofNat] at hbits
  omega

theorem absorbByte_bits (b : Byte) : (absorbByte b e).bitLength = BitVec.ofNat 64 (8 * (msg.length + 1)) := by
  rw [absorbByte_bitLength h.lenLo_mod, h.bits, Nat.mul_add, BitVec.ofNat_add]
  rfl

/-- A message that the bit length can count does not corrupt the engine: the bit length after the byte is not 0. -/
theorem absorbByte_not_corrupted (hlen : msg.length + 1 < 2 ^ 61) (b : Byte) : (absorbByte b e).corrupted = false := by
  refine Bool.eq_false_of_not_eq_true fun hcorrupted => ?_
  have hzero := absorbByte_bitLength_of_corrupted h.open_.2 hcorrupted
  rw [h.absorbByte_bits, BitVec.toNat_ofNat] at hzero
  omega

/-- The buffer after the byte, up to and including the place of that byte: the last bytes of the longer message. -/
theorem read_absorbByte (hw : e.buf.wf) (b : Byte) {j : Nat} (hj : j ≤ msg.length % 64) :
    (absorbByte b e).buf.read j = (msg ++ [b]).getD (64 * (msg.length / 64) + j) 0 := by
  rw [absorbByte_buf, read_memWrite1 hw, h.index]
  by_cases hlast : j = msg.length % 64
  · rw [if_pos hlast, hlast, Nat.div_add_mod, List.getD_append_right _ _ _ _ (Nat.le_refl _), Nat.sub_self]
    rfl
  · rw [if_neg hlast, h.bytes j (by omega), List.getD_append _ _ _ _ (by omega)]

/-- The hash after the byte: as it was, or with one more block when the byte fills the buffer. -/
theorem absorbByte_hash (hw : e.buf.wf) (b : Byte) :
    (absorbByte b e).H = hashBlocks ((msg.length + 1) / 64) (initialHash e.alg) (msg ++ [b]) := by
  have hidx := h.index
  have hwhole : hashBlocks (msg.length / 64) (initialHash e.alg) (msg ++ [b]) = e.H :=
    (hashBlocks_append _ _ _ _ (Nat.mul_div_le _ _)).trans h.hash.symm
  by_cases hlast : e.blockIndex.val = 63
  · have hblock : messageWord (absorbByte b e).buf = blockWord ((msg ++ [b]).drop (64 * (msg.length / 64))) := by
      rw [blockWord_eq_wordsOf]
      refine messageWord_eq_wordsOf fun a ha => ?_
      rw [h.read_absorbByte hw b (by omega), getD_drop]
    have hcount : (msg.length + 1) / 64 = msg.length / 64 + 1 := by omega
    rw [hcount, hashBlocks_succ, hwhole, ← hblock, absorbByte_H_of_last hlast]
  · have hcount : (msg.length + 1) / 64 = msg.length / 64 := by omega
    rw [hcount, hwhole, absorbByte_H_of_ne hlast]

theorem absorbByte_holds (hw : e.buf.wf) (hlen : msg.length + 1 < 2 ^ 61) (b : Byte) :
    (absorbByte b e).Holds (msg ++ [b]) where
  hash := by rw [absorbByte_alg, List.length_append]; exact h.absorbByte_hash hw b
  bytes j hj := by
    rw [List.length_append, List.length_singleton] at hj ⊢
    rw [h.read_absorbByte hw b (by omega), show (msg.length + 1) / 64 = msg.length / 64 by omega]
  index := by rw [absorbByte_blockIndex_val, h.index, List.length_append, List.length_singleton]; omega
  bits := by rw [List.length_append]; exact h.absorbByte_bits b
  open_ := ⟨(absorbByte_finalized e b).trans h.open_.1, h.absorbByte_not_corrupted hlen b⟩

end Engine.Holds

/-- Settles O36: an engine that holds a message is absorbing, so `INPUT` absorbs its byte. -/
theorem inputExtendsTheMessage : Obligations.InputExtendsTheMessage := by
  intro s e msg b hs hholds hw hlen
  obtain ⟨hf, hc⟩ := hholds.open_
  refine ⟨absorbByte b e, ?_, hholds.absorbByte_holds hw hlen b, absorbByte_wf hw b, absorbByte_alg e b⟩
  rw [exec_of_serves hs, commandEffect_input_of_absorbing hc hf]
  rfl

end Sys2Proof.Machine

/-! SUPPORT. The statements on the encoding: commands and their words (R70 to R74), the lines of the assembler (R79), `INPUTS`
(R80), what an illegal word does (R74), and the data of a response (R77). -/

namespace Sys2Proof

/-! ### The decoder and the encoder are inverse (R70 to R73) -/

/-- The decoder reads the two fields of a word, and those of `encode i` are the opcode and the operand byte of `i`. -/
@[simp] theorem decode_encode (i : Instr) : decode (encode i) = .ok i := by
  unfold decode
  rw [opField_encode, immField_encode]
  cases i <;> rfl

/-- Settles O2: the decoder reads back the fields that the encoder writes, and a word that decodes is its two fields. -/
theorem decodeAndEncodeAgree : Obligations.DecodeAndEncodeAgree :=
  ⟨fun i _ => decode_encode i, fun _ _ h => (eq_encode_of_decode h).symm⟩

/-- Settles O1, by evaluating the decoder on the eleven words. -/
theorem wordsWrittenOutDecode : Obligations.WordsWrittenOutDecode := by
  unfold Obligations.WordsWrittenOutDecode
  decide

/-! ### The checks on a line (R79) -/

/-- A line passes the checks when it is `INPUT` with an operand that is a byte, or another command without an operand. -/
theorem Line.check_eq_none_iff (l : Line) : l.check = none ↔
    (l.mnemonic = .input ∧ ∃ n < 256, l.operand = some n) ∨ (l.mnemonic ≠ .input ∧ l.operand = none) := by
  obtain ⟨m, operand⟩ := l
  cases operand with
  | none => cases m <;> simp [Line.check, Mnemonic.takesOperand]
  | some n => cases m <;> simp [Line.check, Mnemonic.takesOperand]

theorem Instr.check_toLine (i : Instr) : i.toLine.check = none := by
  simpa [Instr.wf, Line.wf] using i.wf_eq_true

namespace Machine

/-! ### Illegal words (R73, R74) -/

/-- The opcode of a command is in 0x01..0x07, and its operand byte is 0x00 unless it is `INPUT`. -/
theorem not_illegalWord_encode (i : Instr) : ¬ illegalWord (encode i) := by
  unfold illegalWord
  rw [← opField_toNat, ← immField_toNat, opField_encode, immField_encode]
  cases i <;> simp [opcode, operandByte]

/-- Settles O3: a word that does not decode is in the list, and a word that decodes is the word of a command. -/
theorem illegalWordsAreExactlyTheListed : Obligations.IllegalWordsAreExactlyTheListed := by
  refine fun w => ⟨fun ⟨_, h⟩ => illegalWord_of_decode h, fun hill => ?_⟩
  cases hd : decode w with
  | error why => exact ⟨why, rfl⟩
  | ok i => exact absurd (eq_encode_of_decode hd ▸ hill) (not_illegalWord_encode i)

theorem wordEffect_of_illegalWord {w : Cmd} (h : illegalWord w) : wordEffect w = raiseFault .illegalCommand w := by
  obtain ⟨why, hd⟩ := (illegalWordsAreExactlyTheListed w).2 h
  funext e
  simp [wordEffect, hd]

/-- Settles O26: the effect of an illegal word on an engine that accepts it is the fault entry. -/
theorem illegalWordFaults : Obligations.IllegalWordFaults := by
  intro s p w rest e hi hp hpor hfault hill
  have hs : (s.taken p rest).serves e := ⟨hp, hpor, hfault⟩
  rw [step_of_command hi, onEngine_of_serves hs, wordEffect_of_illegalWord hill]
  rfl

/-! ### The lines of the assembler (R79) -/

theorem assembleLine_eq_ok_iff (l : Line) (i : Instr) : assembleLine l = .ok i ↔ l.check = none ∧ lineInstr l = i := by
  unfold assembleLine
  cases l.check <;> simp

theorem assembleLine_refuses_iff (l : Line) : (∃ why, assembleLine l = .error why) ↔ l.check ≠ none := by
  unfold assembleLine
  cases l.check <;> simp

theorem lineInstr_toLine (i : Instr) : lineInstr i.toLine = i := by
  cases i with
  | input b => simp [lineInstr, Instr.toLine]
  | inputEmpty => rfl
  | result => rfl
  | reset => rfl
  | obits => rfl
  | obytes => rfl
  | bsize => rfl

/-- A line that passes the checks is the line of its command: an operand below 256 is the value of its byte. -/
theorem toLine_lineInstr {l : Line} (h : l.check = none) : (lineInstr l).toLine = l := by
  obtain ⟨m, operand⟩ := l
  rcases (Line.check_eq_none_iff _).1 h with ⟨rfl, n, hn, rfl⟩ | ⟨hm, rfl⟩
  · simp [lineInstr, Instr.toLine, Nat.mod_eq_of_lt hn]
  · cases m with
    | input => exact absurd rfl hm
    | inputEmpty => rfl
    | result => rfl
    | reset => rfl
    | obits => rfl
    | obytes => rfl
    | bsize => rfl

/-- Settles O4: `toLine` and `lineInstr` are inverse on the lines that pass the checks, and the assembler refuses the
others. -/
theorem assemblerSpellsEveryCommandOnce : Obligations.AssemblerSpellsEveryCommandOnce := by
  refine ⟨fun i => ?_, fun l i h => ?_, fun l => ?_⟩
  · exact (assembleLine_eq_ok_iff _ _).2 ⟨i.check_toLine, lineInstr_toLine i⟩
  · obtain ⟨hcheck, rfl⟩ := (assembleLine_eq_ok_iff _ _).1 h
    exact toLine_lineInstr hcheck
  · rw [assembleLine_refuses_iff, ne_eq, Line.check_eq_none_iff]
    by_cases hm : l.mnemonic = .input
    · simp only [hm, ne_eq, not_true_eq_false, false_and, or_false, true_and, not_exists, not_and]
      exact ⟨fun h n hn => not_lt.1 fun hlt => h n hlt hn, fun h n hlt hn => absurd (h n hn) (not_le.2 hlt)⟩
    · simp only [hm, ne_eq, not_false_eq_true, false_and, false_or, true_and]

/-! ### The expansion of `INPUTS` (R80) -/

theorem inputs_of_ne_nil {bs : List Byte} (h : bs ≠ []) : inputs bs = bs.map .input := by
  cases bs with
  | nil => exact absurd rfl h
  | cons b bs => rfl

theorem flatten_ne_nil_of_chunks {chunks : List (List Byte)} (hne : chunks ≠ []) (h : ∀ c ∈ chunks, c ≠ []) :
    chunks.flatten ≠ [] := by
  obtain ⟨c, hc⟩ := List.exists_mem_of_ne_nil chunks hne
  exact fun hnil => h c hc (List.flatten_eq_nil_iff.1 hnil c hc)

/-- Settles O5: the expansion of non-empty bytes is a map, and a map goes over joined chunks one after another. -/
theorem chunkingMakesNoDifference : Obligations.ChunkingMakesNoDifference := by
  refine ⟨rfl, fun chunks hne h => ?_⟩
  calc inputs chunks.flatten
      = chunks.flatten.map .input := inputs_of_ne_nil (flatten_ne_nil_of_chunks hne h)
    _ = chunks.flatMap (List.map .input) := by rw [List.map_flatten, List.flatMap_def]
    _ = chunks.flatMap inputs := List.flatMap_congr fun c hc => (inputs_of_ne_nil (h c hc)).symm

/-! ### The data of a response (R77) -/

section ResponseData
variable (e : Engine)

/-- An input command answers without data, whichever of its guards applies. -/
theorem input_data (b : Byte) : (commandEffect (.input b) e).2.data = [] := by
  cases hc : e.corrupted with
  | true => rw [commandEffect_input_of_corrupted hc]; rfl
  | false =>
    cases hf : e.finalized with
    | true => rw [commandEffect_input_of_finalized hc hf]; rfl
    | false => rw [commandEffect_input_of_absorbing hc hf]; rfl

theorem inputEmpty_data : (commandEffect .inputEmpty e).2.data = [] := by
  cases hc : e.corrupted with
  | true => rw [commandEffect_inputEmpty_of_corrupted hc]; rfl
  | false =>
    cases hf : e.finalized with
    | true => rw [commandEffect_inputEmpty_of_finalized hc hf]; rfl
    | false => rw [commandEffect_inputEmpty_of_absorbing hc hf]; rfl

/-- `RESULT` answers the error status without data, or `OK` with the serialized hash that it leaves. -/
theorem result_response : (commandEffect .result e).2 = respondTooLong ∨
    (commandEffect .result e).2 = respondOk (serialize (commandEffect .result e).1.H) := by
  cases hc : e.corrupted with
  | true => rw [commandEffect_result_of_corrupted hc]; exact .inl rfl
  | false =>
    cases hf : e.finalized with
    | true => rw [commandEffect_result_of_finalized hc hf]; exact .inr rfl
    | false => rw [commandEffect_result_of_absorbing hc hf]; exact .inr rfl

theorem data_of_status_ne_ok (i : Instr) (h : (commandEffect i e).2.status ≠ .ok) : (commandEffect i e).2.data = [] := by
  cases i with
  | input b => exact input_data e b
  | inputEmpty => exact inputEmpty_data e
  | result =>
    rcases result_response e with hr | hr
    · rw [hr]; rfl
    · rw [hr] at h; exact absurd rfl h
  | reset => rfl
  | obits => exact absurd rfl h
  | obytes => exact absurd rfl h
  | bsize => exact absurd rfl h

/-- A command is a word, and no word changes the algorithm of an engine. -/
@[simp] theorem commandEffect_alg (i : Instr) : (commandEffect i e).1.alg = e.alg := by
  have hw : wordEffect (encode i) e = commandEffect i e := by simp [wordEffect]
  rw [← hw, wordEffect_alg]

theorem result_data (h : (commandEffect .result e).2.status = .ok) :
    (commandEffect .result e).2.data = serialize (commandEffect .result e).1.H ∧
    (commandEffect .result e).2.data.length = (outputBytes e.alg).toNat := by
  rcases result_response e with hr | hr
  · rw [hr] at h; cases h
  · have hdata : (commandEffect .result e).2.data = serialize (commandEffect .result e).1.H := by
      rw [hr, respondOk]
    have hlen := (digestIsHashBigEndian (commandEffect .result e).1.H).1
    exact ⟨hdata, by rw [hdata, hlen, ← commandEffect_alg e .result, Engine.alg]⟩

end ResponseData

/-- The two bytes of a constant, most significant first, are its value: they are the two fields of a 16-bit word. -/
theorem halfBytes_value (v : BitVec 16) :
    (halfBytes v).length = 2 ∧ (halfBytes v).foldl (fun n b => 256 * n + b.toNat) 0 = v.toNat := by
  refine ⟨rfl, ?_⟩
  change 256 * (256 * 0 + (opField v).toNat) + (immField v).toNat = v.toNat
  rw [Nat.mul_zero, Nat.zero_add, opField_toNat, immField_toNat, Nat.div_add_mod]

/-- Settles O11: the response is that of the command's effect, and each command has its lemma on the data. -/
theorem responseDataByCommandAndStatus : Obligations.ResponseDataByCommandAndStatus := by
  intro i s e hs
  refine ⟨_, _, exec_of_serves hs i, data_of_status_ne_ok e i, fun hok => ?_⟩
  cases i with
  | input b => exact input_data e b
  | inputEmpty => exact inputEmpty_data e
  | result => exact result_data e hok
  | reset => rfl
  | obits => exact halfBytes_value (outputBits e.alg)
  | obytes => exact halfBytes_value (outputBytes e.alg)
  | bsize => exact halfBytes_value (blockSize e.alg)

end Machine

end Sys2Proof

/-! SUPPORT. The statements on the commands (40_commands.md): which engine takes a command, and for each command the
state and the response that it gives. The last is the table of mode transitions (R108). -/

namespace Sys2Proof.Machine

/-! ### Which engine takes a command (R100, R263) -/

theorem Engine.accepts_eq_false_iff (e : Engine) : e.accepts = false ↔ e.faulted = true ∨ e.porDone = false := by
  cases hf : e.faulted <;> simp [Engine.accepts, hf]

theorem exec_of_not_accepts {s : State} {e : Engine} (hp : s.engines[s.port]? = some e) (ha : e.accepts = false)
    (i : Instr) : exec i s = .next s := by
  rw [exec_eq_onEngine, onEngine_of_not_accepts hp ha]

/-- A word for an engine that accepts none is only taken from the offers. -/
theorem step_of_not_accepts {s : State} {p : Nat} {w : Cmd} {rest : List Event} {e : Engine}
    (hi : s.inbox = ⟨p, .command w⟩ :: rest) (hp : s.engines[p]? = some e) (ha : e.accepts = false) :
    step s = .next (s.taken p rest) := by
  rw [step_of_command hi]
  exact onEngine_of_not_accepts (s := s.taken p rest) hp ha _

/-- Settles O7: such an engine does not accept, so neither a command nor a word has an effect on it. -/
theorem unacceptedCommandChangesNothing : Obligations.UnacceptedCommandChangesNothing := by
  intro s e h
  have ha : e.accepts = false := e.accepts_eq_false_iff.2 h
  exact ⟨fun i hp => exec_of_not_accepts hp ha i, fun _ _ _ hi hp => step_of_not_accepts hi hp ha⟩

theorem wordEffect_of_decode {w : Cmd} {i : Instr} (h : decode w = .ok i) : wordEffect w = commandEffect i := by
  funext e
  simp [wordEffect, h]

/-- Settles O6: a step on a word and a command are both `onEngine`, and the word has the effect of its command. -/
theorem stepRunsTheDecodedCommand : Obligations.StepRunsTheDecodedCommand := by
  intro s p w rest i hi hd
  rw [step_of_command hi, wordEffect_of_decode hd, ← exec_eq_onEngine]
  rfl

/-! ### Commands that leave the engine as it was -/

/-- An engine serves again after a command that leaves its reset and its halt as they were. -/
theorem State.serves.deliver {s : State} {e e' : Engine} (hs : s.serves e) (hpor : e'.porDone = e.porDone)
    (hfault : e'.faulted = e.faulted) (r : Response) : (s.deliver e' r).serves e' := by
  obtain ⟨hp, hpor₀, hfault₀⟩ := hs
  exact ⟨List.getElem?_set_self (lt_length_of_getElem? hp), hpor.trans hpor₀, hfault.trans hfault₀⟩

theorem exec_of_unchanged {s : State} {e : Engine} {i : Instr} {r : Response} (hs : s.serves e)
    (h : commandEffect i e = (e, r)) :
    exec i s = .next { s with responses := s.responses ++ [⟨s.port, r⟩] } := by
  rw [exec_of_serves hs, h, State.deliver_self hs.1]

/-- Settles O27: on an absorbing engine the command only answers. -/
theorem inputEmptyIsANoOp : Obligations.InputEmptyIsANoOp :=
  fun _ _ hs hc hf => exec_of_unchanged hs (commandEffect_inputEmpty_of_absorbing hc hf)

/-- A query answers the two bytes of its constant, in every mode that accepts commands. -/
theorem exec_query {s : State} {e : Engine} {i : Instr} {constant : Alg → BitVec 16} {data : List Byte}
    (hs : s.serves e) (hi : commandEffect i = queryCommand constant) (hdata : halfBytes (constant e.alg) = data) :
    exec i s = .next { s with responses := s.responses ++ [⟨s.port, ⟨.ok, data⟩⟩] } := by
  subst hdata
  exact exec_of_unchanged hs (congrFun hi e)

/-- Settles O35, query by query: the bytes of each constant for the two algorithms. -/
theorem queriesAnswerTheConstants : Obligations.QueriesAnswerTheConstants := by
  refine fun s e hs => ⟨fun i data hmem => ?_, by cases e.alg <;> rfl⟩
  simp only [List.mem_cons, Prod.mk.injEq, List.not_mem_nil, or_false] at hmem
  rcases hmem with ⟨rfl, rfl⟩ | ⟨rfl, rfl⟩ | ⟨rfl, rfl⟩
  · exact exec_query (constant := outputBits) hs rfl (by cases e.alg <;> rfl)
  · exact exec_query (constant := outputBytes) hs rfl (by cases e.alg <;> rfl)
  · exact exec_query (constant := blockSize) hs rfl (by cases e.alg <;> rfl)

/-! ### RESET (R104) -/

/-- A fresh engine is at its reset values already. -/
theorem reinitialise_por (a : Alg) : reinitialise (Engine.por a) = Engine.por a := by
  cases a <;> rfl

/-- Settles O15: `RESET` leaves `reinitialise`, which a faulted engine does not take and a fresh one does not notice. -/
theorem resetCommandReinitialises : Obligations.ResetCommandReinitialises := by
  refine ⟨fun s e hs => exec_of_serves hs .reset, fun s e hp hmode => ?_, fun s a hs => ?_⟩
  · exact exec_of_not_accepts hp (e.accepts_eq_false_iff.2 (.inl (Engine.mode_faulted_iff.1 hmode))) .reset
  · exact exec_of_unchanged hs (congrArg (·, respondOk []) (reinitialise_por a))

/-! ### INPUT (R101, R140 to R142) -/

theorem exec_input_of_absorbing {s : State} {e : Engine} (hs : s.serves e) (hc : e.corrupted = false)
    (hf : e.finalized = false) (b : Byte) :
    exec (.input b) s = .next (s.answered (absorbByte b e) ⟨.ok, []⟩) := by
  rw [exec_of_serves hs, commandEffect_input_of_absorbing hc hf]
  rfl

/-- The byte that corrupts an engine is the one at which the bit length is 2^64 - 8 (R142). -/
theorem absorbByte_corrupted_iff_bitLength {e : Engine} (hc : e.corrupted = false) (b : Byte) :
    (absorbByte b e).corrupted = true ↔ e.bitLength = 0xFFFFFFFFFFFFFFF8 := by
  have hlo := e.lenLo.isLt
  have hhi := e.lenHi.isLt
  have hcarry : add32 e.lenHi 1 = 0 ↔ e.lenHi.toNat = 2 ^ 32 - 1 := by
    rw [← BitVec.toNat_inj, add32, BitVec.toNat_add]
    change (e.lenHi.toNat + 1) % 2 ^ 32 = 0 ↔ _
    omega
  rw [absorbByte_corrupted_iff hc, add32_eight_eq_zero_iff, hcarry, ← BitVec.toNat_inj, e.bitLength_toNat]
  change _ ↔ _ = 2 ^ 64 - 8
  omega

/-- Settles O28: a byte below position 63 is absorbed without a compression. -/
theorem inputStoresOneByte : Obligations.InputStoresOneByte := by
  intro s e b hs hc hf hw hm hi
  refine ⟨absorbByte b e, exec_input_of_absorbing hs hc hf b, fun a => ?_, ?_, absorbByte_bitLength hm b,
    absorbByte_corrupted_iff_bitLength hc b, ?_⟩
  · rw [absorbByte_buf, read_memWrite1 hw]
  · rw [absorbByte_blockIndex_val, Nat.mod_eq_of_lt (by omega)]
  · rw [absorbByte_of_lt e b (by omega), incrementLength_eq]

/-- Settles O29: the byte at position 63 is absorbed with a compression of the buffer that holds it. -/
theorem inputThatFillsTheBlockCompresses : Obligations.InputThatFillsTheBlockCompresses := by
  intro s e b hs hc hf hw hm hi
  have hread : ∀ a, (absorbByte b e).buf.read a = if a = 63 then b else e.buf.read a := fun a => by
    rw [absorbByte_buf, read_memWrite1 hw, hi]
  refine ⟨absorbByte b e, exec_input_of_absorbing hs hc hf b, hread, ?_, ?_, absorbByte_bitLength hm b,
    absorbByte_corrupted_iff_bitLength hc b, ?_⟩
  · rw [absorbByte_H_of_last hi, messageWord_eq_wordsOf fun a _ => hread a]
  · rw [absorbByte_of_last e b hi]
  · rw [absorbByte_of_last e b hi, incrementLength_eq]

/-! ### RESULT (R103, R143 to R147) -/

theorem commandEffect_result_of_not_corrupted {e : Engine} (hc : e.corrupted = false) :
    commandEffect .result e = (ensureFinalized e, respondOk (serialize (ensureFinalized e).H)) := by
  simp only [commandEffect, resultCommand, unlessCorrupted_of_not hc]

theorem exec_result_of_not_corrupted {s : State} {e : Engine} (hs : s.serves e) (hc : e.corrupted = false) :
    exec .result s = .next (s.answered (ensureFinalized e) ⟨.ok, serialize (ensureFinalized e).H⟩) := by
  rw [exec_of_serves hs, commandEffect_result_of_not_corrupted hc]
  rfl

/-- `Finalize` writes the hash, clears the buffer and the counters, sets `finalized`, and leaves every other field. -/
theorem finalize_frame (e : Engine) : finalize e =
    { e with H := (finalize e).H, buf := [], blockIndex := 0, lenLo := 0, lenHi := 0, finalized := true } := by
  by_cases h : e.blockIndex.val ≤ 55
  · rw [finalize_oneBlock e h]
  · rw [finalize_twoBlocks e (by omega)]

theorem exec_result_of_absorbing {s : State} {e : Engine} (hs : s.serves e) (hc : e.corrupted = false)
    (hf : e.finalized = false) {h : WorkingHash} (hH : (finalize e).H = h) :
    exec .result s = .next (s.answered
      { e with H := h, buf := [], blockIndex := 0, lenLo := 0, lenHi := 0, finalized := true } ⟨.ok, serialize h⟩) := by
  subst hH
  rw [exec_result_of_not_corrupted hs hc, ensureFinalized_of_not hf, ← finalize_frame]

/-- Settles O31, by the hash after `Finalize` over one block. -/
theorem firstResultPadsWithinTheBlock : Obligations.FirstResultPadsWithinTheBlock := by
  intro s e h hs hc hf hw hi hh
  exact exec_result_of_absorbing hs hc hf ((finalize_H_oneBlock hw hi).trans hh.symm)

/-- Settles O32, by the hash after `Finalize` over two blocks. -/
theorem firstResultPadsOverTwoBlocks : Obligations.FirstResultPadsOverTwoBlocks := by
  intro s e h hs hc hf hw hi hh
  exact exec_result_of_absorbing hs hc hf ((finalize_H_twoBlocks hw hi).trans hh.symm)

/-- `ensureFinalized` sets `finalized`, and leaves the flags that decide whether `RESULT` is accepted and completes. -/
theorem ensureFinalized_flags (e : Engine) :
    (ensureFinalized e).finalized = true ∧ (ensureFinalized e).corrupted = e.corrupted ∧
    (ensureFinalized e).faulted = e.faulted ∧ (ensureFinalized e).porDone = e.porDone := by
  cases hf : e.finalized with
  | true => rw [ensureFinalized_of_finalized hf]; exact ⟨hf, rfl, rfl, rfl⟩
  | false =>
    rw [ensureFinalized_of_not hf]
    exact ⟨finalize_finalized e, finalize_corrupted e, finalize_faulted e, finalize_porDone e⟩

/-- Settles O33: the engine that the first `RESULT` leaves is finalized, so the second one leaves it as it is. -/
theorem resultIsIdempotent : Obligations.ResultIsIdempotent := by
  intro s e hs hc
  obtain ⟨hf', hc', hfault', hpor'⟩ := ensureFinalized_flags e
  refine ⟨ensureFinalized e, serialize (ensureFinalized e).H, exec_result_of_not_corrupted hs hc, hf', rfl,
    ensureFinalized_of_finalized, ?_⟩
  have hagain := commandEffect_result_of_finalized (hc'.trans hc) hf'
  rw [State.answered_eq_deliver, exec_of_unchanged (hs.deliver hpor' hfault' _) hagain, State.deliver_responses,
    List.append_assoc]
  rfl

/-! ### The table of mode transitions (R108) -/

theorem absorbByte_mode {e : Engine} (hmode : e.mode = .absorbing) (b : Byte) :
    (absorbByte b e).mode = if e.bitLength = 0xFFFFFFFFFFFFFFF8 then .corrupted else .absorbing := by
  obtain ⟨hfault, hc, hf⟩ := Engine.mode_absorbing_iff.1 hmode
  have hcorrupted := absorbByte_corrupted_iff_bitLength hc b
  by_cases hwrap : e.bitLength = 0xFFFFFFFFFFFFFFF8
  · rw [if_pos hwrap]
    exact Engine.mode_corrupted_iff.2 ⟨(absorbByte_faulted e b).trans hfault, hcorrupted.2 hwrap⟩
  · rw [if_neg hwrap]
    exact Engine.mode_absorbing_iff.2 ⟨(absorbByte_faulted e b).trans hfault,
      Bool.eq_false_of_not_eq_true (mt hcorrupted.1 hwrap), (absorbByte_finalized e b).trans hf⟩

theorem finalize_mode {e : Engine} (hfault : e.faulted = false) (hc : e.corrupted = false) :
    (finalize e).mode = .finalized :=
  Engine.mode_finalized_iff.2
    ⟨(finalize_faulted e).trans hfault, (finalize_corrupted e).trans hc, finalize_finalized e⟩

theorem reinitialise_mode {e : Engine} (hfault : e.faulted = false) : (reinitialise e).mode = .absorbing :=
  Engine.mode_absorbing_iff.2 ⟨hfault, rfl, rfl⟩

theorem raiseFault_mode (f : Cause) (cmd : Cmd) (e : Engine) : (raiseFault f cmd e).1.mode = .faulted :=
  Engine.mode_faulted_iff.2 rfl

/-- Settles O23: the rows of the table are the cases of the mode, its columns those of the command. -/
theorem modeTransitionTable : Obligations.ModeTransitionTable := by
  refine ⟨fun s e hs _ => ⟨fun i => ?_, fun w hill => ?_⟩, fun s e w hp hmode => ?_⟩
  · refine ⟨_, _, exec_of_serves hs i, ?_⟩
    cases hmode : e.mode with
    | absorbing =>
      obtain ⟨hfault, hc, hf⟩ := Engine.mode_absorbing_iff.1 hmode
      cases i with
      | input b => rw [commandEffect_input_of_absorbing hc hf]; exact ⟨rfl, absorbByte_mode hmode b⟩
      | inputEmpty => rw [commandEffect_inputEmpty_of_absorbing hc hf]; exact ⟨rfl, hmode⟩
      | result => rw [commandEffect_result_of_absorbing hc hf]; exact ⟨rfl, finalize_mode hfault hc⟩
      | reset => exact ⟨rfl, reinitialise_mode hfault⟩
      | obits | obytes | bsize => exact ⟨rfl, hmode⟩
    | finalized =>
      obtain ⟨hfault, hc, hf⟩ := Engine.mode_finalized_iff.1 hmode
      cases i with
      | input b => rw [commandEffect_input_of_finalized hc hf]; exact ⟨rfl, raiseFault_mode _ _ e⟩
      | inputEmpty => rw [commandEffect_inputEmpty_of_finalized hc hf]; exact ⟨rfl, raiseFault_mode _ _ e⟩
      | result => rw [commandEffect_result_of_finalized hc hf]; exact ⟨rfl, hmode⟩
      | reset => exact ⟨rfl, reinitialise_mode hfault⟩
      | obits | obytes | bsize => exact ⟨rfl, hmode⟩
    | corrupted =>
      obtain ⟨hfault, hc⟩ := Engine.mode_corrupted_iff.1 hmode
      cases i with
      | input b => rw [commandEffect_input_of_corrupted hc]; exact ⟨rfl, hmode⟩
      | inputEmpty => rw [commandEffect_inputEmpty_of_corrupted hc]; exact ⟨rfl, hmode⟩
      | result => rw [commandEffect_result_of_corrupted hc]; exact ⟨rfl, hmode⟩
      | reset => exact ⟨rfl, reinitialise_mode hfault⟩
      | obits | obytes | bsize => exact ⟨rfl, hmode⟩
    | faulted =>
      obtain ⟨-, -, hfault⟩ := hs
      exact nomatch hfault.symm.trans (Engine.mode_faulted_iff.1 hmode)
  · obtain ⟨hp, hpor, hfault⟩ := hs
    exact ⟨_, illegalWordFaults _ s.port w s.inbox e rfl hp hpor hfault hill, raiseFault_mode .illegalCommand w e⟩
  · have ha : e.accepts = false := e.accepts_eq_false_iff.2 (.inl (Engine.mode_faulted_iff.1 hmode))
    exact step_of_not_accepts rfl hp ha

end Sys2Proof.Machine

/-! SUPPORT. The statements on the block buffer and the padding (41_buffer_padding.md): the byte that overflows the length
counter, the blocks that a padded message fills, and the stale bytes, which no command observes. -/

namespace Sys2Proof.Machine

/-! ### The byte that overflows the length (R142, R29 item 6) -/

/-- The three commands that a corrupted engine answers with the error leave it as it is (R101 to R103, R231). -/
theorem commandEffect_of_corrupted {e : Engine} (hc : e.corrupted = true) {i : Instr} {c : Byte}
    (hi : i ∈ [Instr.input c, .inputEmpty, .result]) : commandEffect i e = (e, respondTooLong) := by
  simp only [List.mem_cons, List.not_mem_nil, or_false] at hi
  rcases hi with rfl | rfl | rfl
  · exact commandEffect_input_of_corrupted hc c
  · exact commandEffect_inputEmpty_of_corrupted hc
  · exact commandEffect_result_of_corrupted hc

/-- The hash after the byte at position 63: one compression over the buffer with that byte in it. -/
theorem absorbByte_H_of_last_eq_wordsOf {e : Engine} (hw : e.buf.wf) (hi : e.blockIndex.val = 63) (b : Byte) :
    (absorbByte b e).H = compressHash e.H (wordsOf (fun a => if a = 63 then b else e.buf.read a)) := by
  rw [absorbByte_H_of_last hi, absorbByte_buf]
  exact congrArg (compressHash e.H) (messageWord_eq_wordsOf fun a _ => by rw [read_memWrite1 hw, hi])

/-- The index counts the bytes of the bit length, so the byte that wraps the length is the last of its block. -/
theorem Engine.Inv.blockIndex_of_brim {e : Engine} (h : e.Inv) (hpor : e.porDone = true) (hmode : e.mode = .absorbing)
    (hbrim : e.bitLength = 0xFFFFFFFFFFFFFFF8) : e.blockIndex.val = 63 := by
  rw [h.absorbing hpor hmode, hbrim]
  rfl

/-- Settles O30: the invariants put the byte at position 63, and hold again after it, in mode `CORRUPTED`. -/
theorem overflowingByteCorrupts : Obligations.OverflowingByteCorrupts := by
  intro s e b hs hinv hmode hbrim
  have ⟨_, hpor, _⟩ := hs
  obtain ⟨-, hc, hf⟩ := Engine.mode_absorbing_iff.1 hmode
  have hi := hinv.blockIndex_of_brim hpor hmode hbrim
  have hmode' : (absorbByte b e).mode = .corrupted := (absorbByte_mode hmode b).trans (if_pos hbrim)
  obtain ⟨hidx, hlo, hhi⟩ :=
    (absorbByte_inv hinv hpor hmode b).corruptedZero ((absorbByte_porDone e b).trans hpor) hmode'
  refine ⟨hi, absorbByte b e, exec_input_of_absorbing hs hc hf b, hmode', hlo, hhi, hidx,
    absorbByte_H_of_last_eq_wordsOf hinv.bufWf hi b, fun c i hmem => ?_⟩
  have hs' := hs.deliver (absorbByte_porDone e b) (absorbByte_faulted e b) ⟨.ok, []⟩
  have hsame := commandEffect_of_corrupted (Engine.mode_corrupted_iff.1 hmode').2 hmem
  exact ⟨_, exec_of_unchanged hs' hsame, rfl, List.append_assoc _ _ _⟩

/-! ### The blocks of the padded message (R144, R146, R148) -/

theorem append_marker_prefix_paddedMessage (msg : List Byte) : (msg ++ [0x80]) <+: paddedMessage msg :=
  ⟨_, (List.append_cons _ _ _).symm⟩

/-- The last 8 bytes of the padded message, by their addresses 56..63 in the last block. -/
theorem getElem?_paddedMessage_footer (msg : List Byte) {a : Nat} (h56 : 56 ≤ a) (h64 : a < 64) :
    (paddedMessage msg)[(paddedMessage msg).length - 64 + a]? =
      some (footerByte (BitVec.ofNat 64 (8 * msg.length)) a) := by
  have hlen := paddedMessage_length_eq_add msg
  have hblock : 64 ≤ (paddedMessage msg).length := by
    rw [paddedMessage_length]
    split <;> omega
  have hlt : (paddedMessage msg).length - 64 + a < (paddedMessage msg).length := by omega
  have haddr : (paddedMessage msg).length - 64 + a + 64 - (paddedMessage msg).length = a := by omega
  rw [List.getElem?_eq_getElem hlt, ← List.getD_eq_getElem _ 0 hlt, getD_paddedMessage msg hlt, if_neg (by omega),
    if_neg (by omega), if_neg (by omega), haddr]

/-- Settles O39: the length, the first bytes and the last bytes of the padded message. -/
theorem paddedMessageFillsBlocks : Obligations.PaddedMessageFillsBlocks := fun msg =>
  ⟨paddedMessage_length msg, append_marker_prefix_paddedMessage msg, fun _ => getElem?_paddedMessage_footer msg⟩

/-! ### Stale bytes (R149) -/

theorem Engine.sameButStale_iff {e f : Engine} :
    e.sameButStale f ↔ ∃ m : Memory, f = { e with buf := m } ∧ ∀ j < e.blockIndex.val, m.read j = e.buf.read j := by
  refine ⟨fun ⟨rest, bytes⟩ => ⟨f.buf, rest, bytes⟩, ?_⟩
  rintro ⟨m, rfl, hm⟩
  exact ⟨rfl, hm⟩

theorem Engine.sameButStale_refl (e : Engine) : e.sameButStale e := ⟨rfl, fun _ _ => rfl⟩

section Stale
variable {e f : Engine} (h : e.sameButStale f)
include h

theorem Engine.sameButStale.H_eq : f.H = e.H := by rw [h.rest]
theorem Engine.sameButStale.corrupted_eq : f.corrupted = e.corrupted := by rw [h.rest]
theorem Engine.sameButStale.finalized_eq : f.finalized = e.finalized := by rw [h.rest]
theorem Engine.sameButStale.faulted_eq : f.faulted = e.faulted := by rw [h.rest]
theorem Engine.sameButStale.porDone_eq : f.porDone = e.porDone := by rw [h.rest]
theorem Engine.sameButStale.alg_eq : f.alg = e.alg := congrArg WorkingHash.alg h.H_eq

end Stale

/-- A byte is stored at `block_index`, so it hides the first stale byte; at position 63 no stale byte is left, and the two
engines compress the same block. -/
theorem absorbByte_sameButStale {e f : Engine} (h : e.sameButStale f) (he : e.buf.wf) (hf : f.buf.wf) (b : Byte) :
    (absorbByte b e).sameButStale (absorbByte b f) := by
  obtain ⟨m, rfl, hm⟩ := Engine.sameButStale_iff.1 h
  have hread : ∀ j < e.blockIndex.val + 1,
      (memWrite1 m e.blockIndex b).read j = (memWrite1 e.buf e.blockIndex b).read j := fun j hj => by
    rw [read_memWrite1 hf, read_memWrite1 he]
    split
    · rfl
    · exact hm j (by omega)
  by_cases hlt : e.blockIndex.val + 1 < 64
  · rw [absorbByte_of_lt e b hlt, absorbByte_of_lt { e with buf := m } b hlt]
    simp only [incrementLength_eq]
    exact ⟨rfl, hread⟩
  · have hlast : e.blockIndex.val = 63 := by omega
    have hblock : messageWord (memWrite1 m e.blockIndex b) = messageWord (memWrite1 e.buf e.blockIndex b) :=
      messageWord_congr fun a ha => hread a (by omega)
    rw [absorbByte_of_last e b hlast, absorbByte_of_last { e with buf := m } b hlast]
    simp only [incrementLength_eq, hblock]
    exact ⟨rfl, fun j hj => absurd hj (Nat.not_lt_zero j)⟩

/-- The marker and the zero fill overwrite every stale byte, so the padded blocks are the same. -/
theorem finalize_H_of_sameButStale {e f : Engine} (h : e.sameButStale f) (he : e.buf.wf) (hf : f.buf.wf) :
    (finalize f).H = (finalize e).H := by
  obtain ⟨m, rfl, hm⟩ := Engine.sameButStale_iff.1 h
  have hread : ∀ (a : Nat) (x : Byte), (if a < e.blockIndex.val then m.read a else x) =
      if a < e.blockIndex.val then e.buf.read a else x := fun a x => by
    split
    · exact hm a (by assumption)
    · rfl
  by_cases h55 : e.blockIndex.val ≤ 55
  · rw [finalize_H_oneBlock he h55, finalize_H_oneBlock hf h55]
    simp only [hread]
    rfl
  · rw [finalize_H_twoBlocks he (by omega), finalize_H_twoBlocks hf (Nat.not_le.1 h55)]
    simp only [hread]
    rfl

/-- `Finalize` clears the buffer, so the two engines are the same after it. -/
theorem finalize_of_sameButStale {e f : Engine} (h : e.sameButStale f) (he : e.buf.wf) (hf : f.buf.wf) :
    finalize f = finalize e := by
  rw [finalize_frame f, finalize_frame e, finalize_H_of_sameButStale h he hf, h.rest]

theorem ensureFinalized_sameButStale {e f : Engine} (h : e.sameButStale f) (he : e.buf.wf) (hf : f.buf.wf) :
    (ensureFinalized f).H = (ensureFinalized e).H ∧ (ensureFinalized e).sameButStale (ensureFinalized f) := by
  cases hfin : e.finalized with
  | true =>
    rw [ensureFinalized_of_finalized hfin, ensureFinalized_of_finalized (h.finalized_eq.trans hfin)]
    exact ⟨h.H_eq, h⟩
  | false =>
    rw [ensureFinalized_of_not hfin, ensureFinalized_of_not (h.finalized_eq.trans hfin),
      finalize_of_sameButStale h he hf]
    exact ⟨rfl, Engine.sameButStale_refl _⟩

/-- `RESET` clears the buffer, and every other field is the same already. -/
theorem reinitialise_sameButStale {e f : Engine} (h : e.sameButStale f) :
    (reinitialise e).sameButStale (reinitialise f) := by
  rw [h.rest]
  exact ⟨rfl, fun _ _ => rfl⟩

/-- An effect answers the two engines alike: with the same response, and they still differ at most in stale bytes. -/
def AnswersAlike (g : Engine → Engine × Response) (e f : Engine) : Prop :=
  (g f).2 = (g e).2 ∧ (g e).1.sameButStale (g f).1

section AnswersAlike
variable {e f : Engine} {g : Engine → Engine × Response} (h : e.sameButStale f)
include h

theorem unlessCorrupted_answersAlike (hg : AnswersAlike g e f) : AnswersAlike (unlessCorrupted g) e f := by
  unfold AnswersAlike
  cases hc : e.corrupted with
  | true =>
    rw [unlessCorrupted_of_corrupted hc, unlessCorrupted_of_corrupted (h.corrupted_eq.trans hc)]
    exact ⟨rfl, h⟩
  | false =>
    rw [unlessCorrupted_of_not hc, unlessCorrupted_of_not (h.corrupted_eq.trans hc)]
    exact hg

/-- Fault entry leaves the buffer and the index alone. -/
theorem raiseFault_answersAlike (why : Cause) (cmd : Cmd) : AnswersAlike (raiseFault why cmd) e f := by
  obtain ⟨m, rfl, hm⟩ := Engine.sameButStale_iff.1 h
  exact ⟨rfl, rfl, hm⟩

theorem guardInput_answersAlike (cmd : Cmd) (hg : AnswersAlike g e f) : AnswersAlike (guardInput cmd g) e f := by
  refine unlessCorrupted_answersAlike h ?_
  unfold AnswersAlike unlessFinalized
  rw [h.finalized_eq]
  split
  · exact raiseFault_answersAlike h .precondition cmd
  · exact hg

theorem queryCommand_answersAlike (constant : Alg → BitVec 16) : AnswersAlike (queryCommand constant) e f :=
  ⟨congrArg (fun a => respondOk (halfBytes (constant a))) h.alg_eq, h⟩

/-- No command observes a stale byte (R149). -/
theorem commandEffect_answersAlike (he : e.buf.wf) (hf : f.buf.wf) (i : Instr) :
    AnswersAlike (commandEffect i) e f := by
  cases i with
  | input b => exact guardInput_answersAlike h _ ⟨rfl, absorbByte_sameButStale h he hf b⟩
  | inputEmpty => exact guardInput_answersAlike h _ ⟨rfl, h⟩
  | result =>
    obtain ⟨hH, hstale⟩ := ensureFinalized_sameButStale h he hf
    exact unlessCorrupted_answersAlike h ⟨congrArg (fun hash => respondOk (serialize hash)) hH, hstale⟩
  | reset => exact ⟨rfl, reinitialise_sameButStale h⟩
  | obits => exact queryCommand_answersAlike h outputBits
  | obytes => exact queryCommand_answersAlike h outputBytes
  | bsize => exact queryCommand_answersAlike h blockSize

end AnswersAlike

/-- Settles O40: the engine in place of `e` serves as `e` does, and the effect of the command answers both alike. -/
theorem staleBytesAreNeverObserved : Obligations.StaleBytesAreNeverObserved := by
  intro i s e f hs h he hf
  have ⟨hp, hpor, hfault⟩ := hs
  have hs' : ({ s with engines := s.engines.set s.port f } : State).serves f :=
    ⟨List.getElem?_set_self (lt_length_of_getElem? hp), h.porDone_eq.trans hpor, h.faulted_eq.trans hfault⟩
  obtain ⟨hresponse, hstale⟩ := commandEffect_answersAlike h he hf i
  refine ⟨_, _, _, exec_of_serves hs i, ?_, hstale⟩
  rw [exec_of_serves hs' i, hresponse]
  rfl

end Sys2Proof.Machine

/-! SUPPORT. The statements on the SHA-1 compression (42_sha1.md): the tables of rounds, the message schedule with its
recurrence, and the eighty rounds. -/

namespace Sys2Proof.Machine

/-! ### The tables of rounds (R162, R163) -/

/-- Settles O46, by the four ranges of rounds. -/
theorem sha1ConstantsAndFunctions : Obligations.Sha1ConstantsAndFunctions := by
  intro t _ x y z
  unfold sha1K sha1F
  refine ⟨fun h19 => ⟨if_pos h19, if_pos h19⟩, fun h20 h39 => ?_, fun h40 h59 => ?_, fun h60 => ?_⟩
  · have h19 : ¬ t ≤ 19 := by omega
    simp only [if_neg h19, if_pos h39, and_self]
  · have h19 : ¬ t ≤ 19 := by omega
    have h39 : ¬ t ≤ 39 := by omega
    simp only [if_neg h19, if_neg h39, if_pos h59, and_self]
  · have h19 : ¬ t ≤ 19 := by omega
    have h39 : ¬ t ≤ 39 := by omega
    have h59 : ¬ t ≤ 59 := by omega
    simp only [if_neg h19, if_neg h39, if_neg h59, and_self]

/-! ### The message schedule (R164) -/

/-- The words before `t`, cut off, are still the words of the schedule. -/
theorem scheduleWord_take (W : List Word) {i t : Nat} (h : i < t) : scheduleWord (W.take t) i = W.getD i 0 := by
  rw [scheduleWord, List.getD_eq_getElem?_getD, List.getElem?_take_of_lt h, List.getD_eq_getElem?_getD]

/-- The first words of a schedule grown from the 16 message words are the message words. -/
theorem growSchedule_ofFn_getD (next : List Word → Word) (n : Nat) (M : Fin 16 → Word) (t : Fin 16) :
    (growSchedule next n (List.ofFn M)).getD t 0 = M t := by
  have ht : t.val < (List.ofFn M).length := by simp
  rw [growSchedule_getD_of_lt next n _ t ht, List.getD_eq_getElem _ _ ht, List.getElem_ofFn]

theorem sha1Schedule_length (M : Fin 16 → Word) : (sha1Schedule M).length = 80 := by
  rw [sha1Schedule, growSchedule_length, List.length_ofFn]

/-- The word that follows the first `t` words of `W`. -/
theorem sha1NextWord_take {W : List Word} {t : Nat} (h16 : 16 ≤ t) (ht : t ≤ W.length) :
    sha1NextWord (W.take t) =
      rotl32 (W.getD (t - 3) 0 ^^^ W.getD (t - 8) 0 ^^^ W.getD (t - 14) 0 ^^^ W.getD (t - 16) 0) 1 := by
  have hlen : (W.take t).length = t := List.length_take_of_le ht
  have hword : ∀ k, 0 < k → scheduleWord (W.take t) (t - k) = W.getD (t - k) 0 := fun k hk =>
    scheduleWord_take W (by omega)
  simp only [sha1NextWord, hlen, hword, Nat.reduceLT]

/-- Settles O47: the schedule grows by `sha1NextWord` from the message words, and that reads lower indices only. -/
theorem sha1ScheduleRecurrence : Obligations.Sha1ScheduleRecurrence := by
  intro M W hW
  refine ⟨sha1Schedule_length M, fun t => (hW t).trans (growSchedule_ofFn_getD _ _ M t), fun t h16 ht => ?_⟩
  have hlen : (List.ofFn M).length = 16 := List.length_ofFn
  have hnext : (sha1Schedule M).getD t 0 = sha1NextWord ((sha1Schedule M).take t) :=
    growSchedule_getD_of_ge sha1NextWord 64 (List.ofFn M) t (by omega) (by omega)
  have hle : t ≤ (sha1Schedule M).length := by rw [sha1Schedule_length]; omega
  simp only [hW]
  exact hnext.trans (sha1NextWord_take h16 hle)

/-! ### The rounds (R165, R166) -/

theorem sha1Rounds_zero (W : List Word) (v : Sha1Vars) : sha1Rounds W v 0 = v := rfl

theorem sha1Rounds_succ (W : List Word) (v : Sha1Vars) (n : Nat) :
    sha1Rounds W v (n + 1) = sha1Round W (sha1Rounds W v n) n := by
  simp only [sha1Rounds, List.range_succ, List.foldl_append, List.foldl_cons, List.foldl_nil]

/-- Settles O48: the variables of round `t` are those after the first `t` rounds. -/
theorem sha1CompressionIsEightyRounds : Obligations.Sha1CompressionIsEightyRounds := by
  intro h M
  refine ⟨sha1Rounds (sha1Schedule M) (sha1Start h), sha1Rounds_zero _ _, fun t _ => ?_, rfl⟩
  rw [sha1Rounds_succ]
  rfl

end Sys2Proof.Machine

/-! SUPPORT. The statements on the SHA-256 compression (43_sha256.md): the message schedule with its recurrence, the
sixty-four rounds, and the two tables as roots of primes. -/

namespace Sys2Proof.Machine

/-! ### The message schedule (R183) -/

theorem sha256Schedule_length (M : Fin 16 → Word) : (sha256Schedule M).length = 64 := by
  rw [sha256Schedule, growSchedule_length, List.length_ofFn]

/-- The word that follows the first `t` words of `W`. -/
theorem sha256NextWord_take {W : List Word} {t : Nat} (h16 : 16 ≤ t) (ht : t ≤ W.length) :
    sha256NextWord (W.take t) =
      smallSigma1 (W.getD (t - 2) 0) + W.getD (t - 7) 0 + smallSigma0 (W.getD (t - 15) 0) + W.getD (t - 16) 0 := by
  have hlen : (W.take t).length = t := List.length_take_of_le ht
  have hword : ∀ k, 0 < k → scheduleWord (W.take t) (t - k) = W.getD (t - k) 0 := fun k hk =>
    scheduleWord_take W (by omega)
  simp only [sha256NextWord, add32, hlen, hword, Nat.reduceLT]

/-- Settles O49: the schedule grows by `sha256NextWord` from the message words, and that reads lower indices only. -/
theorem sha256ScheduleRecurrence : Obligations.Sha256ScheduleRecurrence := by
  intro M W hW
  refine ⟨sha256Schedule_length M, fun t => (hW t).trans (growSchedule_ofFn_getD _ _ M t), fun t h16 ht => ?_⟩
  have hlen : (List.ofFn M).length = 16 := List.length_ofFn
  have hnext : (sha256Schedule M).getD t 0 = sha256NextWord ((sha256Schedule M).take t) :=
    growSchedule_getD_of_ge sha256NextWord 48 (List.ofFn M) t (by omega) (by omega)
  have hle : t ≤ (sha256Schedule M).length := by rw [sha256Schedule_length]; omega
  simp only [hW]
  exact hnext.trans (sha256NextWord_take h16 hle)

/-! ### The rounds (R184, R186) -/

theorem sha256Rounds_zero (W : List Word) (v : Sha256Vars) : sha256Rounds W v 0 = v := rfl

theorem sha256Rounds_succ (W : List Word) (v : Sha256Vars) (n : Nat) :
    sha256Rounds W v (n + 1) = sha256Round W (sha256Rounds W v n) n := by
  simp only [sha256Rounds, List.range_succ, List.foldl_append, List.foldl_cons, List.foldl_nil]

/-- Settles O50: the variables of round `t` are those after the first `t` rounds, and `T1` and `T2` are the model's
own sums over them. -/
theorem sha256CompressionIsSixtyFourRounds : Obligations.Sha256CompressionIsSixtyFourRounds := by
  intro h M
  refine ⟨sha256Rounds (sha256Schedule M) (sha256Start h),
    fun t => sha256T1 (sha256Schedule M) (sha256Rounds (sha256Schedule M) (sha256Start h) t) t,
    fun t => sha256T2 (sha256Rounds (sha256Schedule M) (sha256Start h) t),
    sha256Rounds_zero _ _, fun t _ => ⟨rfl, rfl, ?_⟩, rfl⟩
  rw [sha256Rounds_succ]
  rfl

/-! ### The tables as roots of primes (R181, R182) -/

/-- Trial division: the least prime factor of a composite number below `k ^ 2` is below `k`. -/
theorem prime_iff_of_lt_sq {n k : Nat} (h : n < k ^ 2) :
    n.Prime ↔ 2 ≤ n ∧ ∀ m < k, m ∣ n → m = 1 ∨ m = n := by
  refine ⟨fun hn => ⟨hn.two_le, fun m _ => hn.eq_one_or_self_of_dvd m⟩, fun ⟨h2, hdvd⟩ => ?_⟩
  have hprime : n.minFac.Prime := Nat.minFac_prime (by omega)
  by_contra hn
  have hlt : n.minFac < k := lt_of_pow_lt_pow_left' 2 ((Nat.minFac_sq_le_self (by omega) hn).trans_lt h)
  rcases hdvd _ hlt n.minFac_dvd with h1 | hself
  · exact hprime.ne_one h1
  · exact hn (hself ▸ hprime)

/-- The first 64 primes, eight a row as the table of round constants lists its words. -/
def first64Primes : List Nat :=
  [2, 3, 5, 7, 11, 13, 17, 19] ++
  [23, 29, 31, 37, 41, 43, 47, 53] ++
  [59, 61, 67, 71, 73, 79, 83, 89] ++
  [97, 101, 103, 107, 109, 113, 127, 131] ++
  [137, 139, 149, 151, 157, 163, 167, 173] ++
  [179, 181, 191, 193, 197, 199, 211, 223] ++
  [227, 229, 233, 239, 241, 251, 257, 263] ++
  [269, 271, 277, 281, 283, 293, 307, 311]

/-- The primes below 312, by trial division with the numbers below 18 (`312 < 18 ^ 2`). -/
theorem filter_prime_range_312 : (List.range 312).filter Nat.Prime = first64Primes :=
  calc (List.range 312).filter Nat.Prime
    _ = (List.range 312).filter fun n => 2 ≤ n ∧ ∀ m < 18, m ∣ n → m = 1 ∨ m = n :=
        List.filter_congr fun n hn => decide_eq_decide.2 <|
          prime_iff_of_lt_sq ((List.mem_range.1 hn).trans (by decide))
    _ = first64Primes := by decide +kernel

/-- R181: the initial hash words, recomputed by Newton's method. -/
theorem ivSha256_toNat_eq_sqrt : ∀ i : Fin 8,
    (ivSha256[i]).toNat = Nat.nthRoot 2 (first64Primes.getD i.val 0 * 2 ^ 64) % 2 ^ 32 := by decide +kernel

/-- R182: the round constants, recomputed by Newton's method. -/
theorem sha256K_toNat_eq_cbrt : ∀ i < 64,
    (sha256K i).toNat = Nat.nthRoot 3 (first64Primes.getD i 0 * 2 ^ 96) % 2 ^ 32 := by decide +kernel

/-- Settles O51: `Nat.nthRoot` is the floor of the root, and its low 32 bits are the words of the two tables. -/
theorem sha256ConstantsAreRootsOfPrimes : Obligations.Sha256ConstantsAreRootsOfPrimes := by
  rintro _ rfl
  rw [filter_prime_range_312]
  refine ⟨rfl, fun i => ⟨_, ?_, ?_, ivSha256_toNat_eq_sqrt i⟩, fun i hi => ⟨_, ?_, ?_, sha256K_toNat_eq_cbrt i hi⟩⟩
  · exact Nat.pow_nthRoot_le (.inl two_ne_zero)
  · exact Nat.lt_pow_nthRoot_add_one two_ne_zero _
  · exact Nat.pow_nthRoot_le (.inl three_ne_zero)
  · exact Nat.lt_pow_nthRoot_add_one three_ne_zero _

end Sys2Proof.Machine

/-! SUPPORT. The statements on the mixing primitives (44_mixing.md): addition, the rotations and the shift, the Boolean
functions and the sigma functions, bit by bit. -/

namespace Sys2Proof.Machine

/-! ### Addition (R200) -/

/-- Settles O42, by the laws of addition on words. -/
theorem additionWraps : Obligations.AdditionWraps := fun x y z =>
  ⟨BitVec.toNat_add x y, BitVec.add_assoc x y z, BitVec.add_comm x y⟩

/-! ### The rotations and the shift (R201 to R203) -/

/-- The model's left rotation is the library's. -/
theorem rotl32_eq_rotateLeft (x : Word) (n : Nat) : rotl32 x n = x.rotateLeft n := rfl

theorem getLsbD_rotl32 (x : Word) {n i : Nat} (hn : n ≤ 31) (hi : i < 32) :
    (rotl32 x n).getLsbD i = x.getLsbD ((i + 32 - n) % 32) := by
  rw [rotl32_eq_rotateLeft, BitVec.getLsbD_rotateLeft_of_le (Nat.lt_succ_of_le hn)]
  by_cases h : i < n
  · -- the bit came round from the top
    have hsrc : (i + 32 - n) % 32 = 32 - n + i := by omega
    simp only [h, decide_true, cond_true, hsrc]
  · -- the bit moved up by `n`
    have hsrc : (i + 32 - n) % 32 = i - n := by omega
    simp only [h, hi, decide_false, cond_false, decide_true, Bool.true_and, hsrc]

/-- The two shifts of a right rotation are those of the left rotation by the rest of the word. -/
theorem rotr32_eq_rotl32 (x : Word) {n : Nat} (h1 : 1 ≤ n) (h31 : n ≤ 31) : rotr32 x n = rotl32 x (32 - n) := by
  have hn : n % 32 = n := by omega
  have hrest : (32 - n) % 32 = 32 - n := by omega
  have hback : 32 - (32 - n) = n := by omega
  rw [rotr32, rotl32, hn, hrest, hback, BitVec.or_comm]

theorem getLsbD_rotr32 (x : Word) {n i : Nat} (h1 : 1 ≤ n) (h31 : n ≤ 31) (hi : i < 32) :
    (rotr32 x n).getLsbD i = x.getLsbD ((i + n) % 32) := by
  have hsrc : i + 32 - (32 - n) = i + n := by omega
  rw [rotr32_eq_rotl32 x h1 h31, getLsbD_rotl32 x (by omega) hi, hsrc]

theorem getLsbD_shr32 (x : Word) (n i : Nat) : (shr32 x n).getLsbD i = x.getLsbD (i + n) := by
  rw [shr32, BitVec.getLsbD_ushiftRight, Nat.add_comm]

theorem shr32_toNat (x : Word) (n : Nat) : (shr32 x n).toNat = x.toNat / 2 ^ n := by
  rw [shr32, BitVec.toNat_ushiftRight, Nat.shiftRight_eq_div_pow]

/-- Settles O43: a left rotation bit by bit, and a right rotation as the left rotation by the rest of the word. -/
theorem rotationsAndShiftBitByBit : Obligations.RotationsAndShiftBitByBit := fun x n h1 h31 =>
  ⟨fun _ => getLsbD_rotl32 x h31, fun _ => getLsbD_rotr32 x h1 h31, rotr32_eq_rotl32 x h1 h31, shr32_toNat x n⟩

/-! ### The Boolean functions (R205 to R207) -/

theorem getLsbD_choice (x y z : Word) {i : Nat} (hi : i < 32) :
    (choice x y z).getLsbD i = if x.getLsbD i then y.getLsbD i else z.getLsbD i := by
  rw [choice, BitVec.getLsbD_xor, BitVec.getLsbD_and, BitVec.getLsbD_and, BitVec.getLsbD_not]
  cases x.getLsbD i with
  | true => simp
  | false => simp [hi]

theorem getLsbD_majority (x y z : Word) (i : Nat) :
    (majority x y z).getLsbD i =
      ((x.getLsbD i && y.getLsbD i) ^^ (x.getLsbD i && z.getLsbD i) ^^ (y.getLsbD i && z.getLsbD i)) := by
  simp only [majority, BitVec.getLsbD_xor, BitVec.getLsbD_and]

theorem getLsbD_parity (x y z : Word) (i : Nat) :
    (parity x y z).getLsbD i = (x.getLsbD i ^^ y.getLsbD i ^^ z.getLsbD i) := by
  simp only [parity, BitVec.getLsbD_xor]

/-- The truth table of R206. -/
theorem majority_bit_iff : ∀ a b c : Bool,
    ((a && b) ^^ (a && c) ^^ (b && c)) = true ↔ 2 ≤ a.toNat + b.toNat + c.toNat := by decide

/-- The truth table of R207. -/
theorem parity_bit_iff : ∀ a b c : Bool,
    (a ^^ b ^^ c) = true ↔ (a.toNat + b.toNat + c.toNat) % 2 = 1 := by decide

/-- Settles O44: each function acts on the three bits of one position, by its truth table. -/
theorem booleanFunctionsBitByBit : Obligations.BooleanFunctionsBitByBit := by
  intro x y z i hi
  refine ⟨getLsbD_choice x y z hi, ?_, ?_⟩
  · rw [getLsbD_majority]
    exact majority_bit_iff _ _ _
  · rw [getLsbD_parity]
    exact parity_bit_iff _ _ _

/-! ### The sigma functions (R208 to R211) -/

/-- The sum of three rotations, the shape of the big sigmas. -/
theorem getLsbD_rotr32_xor_rotr32_xor_rotr32 (x : Word) {a b c i : Nat} (ha : 1 ≤ a ∧ a ≤ 31) (hb : 1 ≤ b ∧ b ≤ 31)
    (hc : 1 ≤ c ∧ c ≤ 31) (hi : i < 32) :
    (rotr32 x a ^^^ rotr32 x b ^^^ rotr32 x c).getLsbD i =
      (x.getLsbD ((i + a) % 32) ^^ x.getLsbD ((i + b) % 32) ^^ x.getLsbD ((i + c) % 32)) := by
  rw [BitVec.getLsbD_xor, BitVec.getLsbD_xor, getLsbD_rotr32 x ha.1 ha.2 hi, getLsbD_rotr32 x hb.1 hb.2 hi,
    getLsbD_rotr32 x hc.1 hc.2 hi]

/-- The sum of two rotations and a shift, the shape of the small sigmas. -/
theorem getLsbD_rotr32_xor_rotr32_xor_shr32 (x : Word) {a b i : Nat} (c : Nat) (ha : 1 ≤ a ∧ a ≤ 31)
    (hb : 1 ≤ b ∧ b ≤ 31) (hi : i < 32) :
    (rotr32 x a ^^^ rotr32 x b ^^^ shr32 x c).getLsbD i =
      (x.getLsbD ((i + a) % 32) ^^ x.getLsbD ((i + b) % 32) ^^ x.getLsbD (i + c)) := by
  rw [BitVec.getLsbD_xor, BitVec.getLsbD_xor, getLsbD_rotr32 x ha.1 ha.2 hi, getLsbD_rotr32 x hb.1 hb.2 hi,
    getLsbD_shr32]

/-- Settles O45: a big sigma is the sum of three rotations, a small one of two rotations and a shift. -/
theorem sigmaFunctionsBitByBit : Obligations.SigmaFunctionsBitByBit := fun x _ hi =>
  ⟨getLsbD_rotr32_xor_rotr32_xor_shr32 x 3 (by decide) (by decide) hi,
    getLsbD_rotr32_xor_rotr32_xor_shr32 x 10 (by decide) (by decide) hi,
    getLsbD_rotr32_xor_rotr32_xor_rotr32 x (by decide) (by decide) (by decide) hi,
    getLsbD_rotr32_xor_rotr32_xor_rotr32 x (by decide) (by decide) (by decide) hi⟩

end Sys2Proof.Machine

/-! SUPPORT. The statements on errors and faults (60_exceptions.md): the outcome of an offered word by the priorities of R237,
and what one event does to the engine of its port, to the other engines, and to a faulted engine. -/

namespace Sys2Proof.Machine

/-! ### Which command stops (R240) -/

theorem exec_of_none {s : State} (hp : s.engines[s.port]? = none) (i : Instr) :
    exec i s = .fault (.noSuchEngine s.port) := by
  rw [exec_eq_onEngine, onEngine_of_none hp]

theorem exists_exec_eq_next {s : State} {e : Engine} (hp : s.engines[s.port]? = some e) (i : Instr) :
    ∃ t, exec i s = .next t := by
  cases ha : e.accepts with
  | true => exact ⟨_, exec_of_serves ⟨hp, e.accepts_eq_true_iff.1 ha⟩ i⟩
  | false => exact ⟨s, exec_of_not_accepts hp ha i⟩

/-- Settles O9: a command completes, or takes no step, on every port that has an engine, and faults on the others. -/
theorem onlyAMissingEngineStopsACommand : Obligations.OnlyAMissingEngineStopsACommand := by
  intro i s
  rw [← List.getElem?_eq_none_iff]
  cases hp : s.engines[s.port]? with
  | none => simp [exec_of_none hp i]
  | some e => simp [exists_exec_eq_next hp i]

/-! ### The error and the precondition fault (R231, R232) -/

/-- Settles O24: each of the three commands leaves a corrupted engine as it is and answers the error. -/
theorem corruptedEngineAnswersTooLong : Obligations.CorruptedEngineAnswersTooLong :=
  fun _ _ _ hs hc _ hi => exec_of_unchanged hs (commandEffect_of_corrupted hc hi)

/-- The word of `INPUT b`, as a number (R70, R72). -/
theorem encode_input (b : Byte) : encode (.input b) = BitVec.ofNat 16 (0x0100 + b.toNat) := by
  have hop := opField_toNat (encode (.input b))
  have himm := immField_toNat (encode (.input b))
  rw [opField_encode] at hop
  rw [immField_encode] at himm
  have hop' : (encode (.input b)).toNat / 256 = 1 := hop.symm
  have himm' : (encode (.input b)).toNat % 256 = b.toNat := himm.symm
  apply BitVec.eq_of_toNat_eq
  rw [BitVec.toNat_ofNat]
  omega

/-- Settles O25: on such an engine the effect of both commands is the fault entry with their own word. -/
theorem inputAfterResultFaults : Obligations.InputAfterResultFaults := by
  refine fun s e hs hc hf => ⟨fun b => ?_, ?_⟩
  · rw [exec_of_serves hs, commandEffect_input_of_finalized hc hf, encode_input]
    rfl
  · rw [exec_of_serves hs, commandEffect_inputEmpty_of_finalized hc hf]
    rfl

/-! ### The priorities of R237 -/

/-- The status that a command answers with: items 3 to 5 of R237. `INPUT`, `INPUT_EMPTY` and `RESULT` are the opcodes up to 3,
and the first two of them those up to 2. -/
theorem commandEffect_status (i : Instr) (e : Engine) : (commandEffect i e).2.status =
    if e.corrupted = true ∧ (opcode i).toNat ≤ 3 then .errInputTooLong
    else if e.finalized = true ∧ (opcode i).toNat ≤ 2 then .faultPrecondition else .ok := by
  cases hc : e.corrupted with
  | true =>
    cases i with
    | input b => rw [commandEffect_input_of_corrupted hc]; rfl
    | inputEmpty => rw [commandEffect_inputEmpty_of_corrupted hc]; rfl
    | result => rw [commandEffect_result_of_corrupted hc]; rfl
    | reset | obits | obytes | bsize => cases e.finalized <;> rfl
  | false =>
    cases hf : e.finalized with
    | true =>
      cases i with
      | input b => rw [commandEffect_input_of_finalized hc hf]; rfl
      | inputEmpty => rw [commandEffect_inputEmpty_of_finalized hc hf]; rfl
      | result => rw [commandEffect_result_of_finalized hc hf]; rfl
      | reset | obits | obytes | bsize => rfl
    | false =>
      cases i with
      | input b => rw [commandEffect_input_of_absorbing hc hf]; rfl
      | inputEmpty => rw [commandEffect_inputEmpty_of_absorbing hc hf]; rfl
      | result => rw [commandEffect_result_of_absorbing hc hf]; rfl
      | reset | obits | obytes | bsize => rfl

/-- The status that a word answers with: items 2 to 5 of R237. -/
theorem wordEffect_status (w : Cmd) (e : Engine) : (wordEffect w e).2.status =
    if illegalWord w then .faultIllegalCommand
    else if e.corrupted = true ∧ w.toNat / 256 ≤ 3 then .errInputTooLong
    else if e.finalized = true ∧ w.toNat / 256 ≤ 2 then .faultPrecondition else .ok := by
  cases hd : decode w with
  | error why =>
    have hill := illegalWord_of_decode hd
    rw [if_pos hill, wordEffect_of_illegalWord hill]
    rfl
  | ok i =>
    have hlegal : ¬ illegalWord w := eq_encode_of_decode hd ▸ not_illegalWord_encode i
    obtain ⟨hop, -⟩ := fields_of_decode hd
    rw [if_neg hlegal, wordEffect_of_decode hd, commandEffect_status, hop, opField_toNat]

/-- Settles O12: a faulted engine does not accept the word, and any other answers with the status of the word's effect. -/
theorem outcomeByPriority : Obligations.OutcomeByPriority := by
  intro s p w rest e hi hp hpor
  cases hfault : e.faulted with
  | true =>
    have ha : e.accepts = false := e.accepts_eq_false_iff.2 (.inl hfault)
    exact ⟨_, step_of_not_accepts hi hp ha, fun _ => rfl, nofun⟩
  | false =>
    have hs : (s.taken p rest).serves e := ⟨hp, hpor, hfault⟩
    refine ⟨_, (step_of_command hi).trans (onEngine_of_serves hs _), nofun, fun _ => ⟨(wordEffect w e).2.data, ?_⟩⟩
    rw [← wordEffect_status w e]
    rfl

/-! ### What an event does to the engine of its port -/

/-- What an event makes of the engine of its port, and the responses that the engine gives: one if it accepts a command,
else none. -/
def eventEffect : EventKind → Engine → Engine × List Response
  | .por,       e => (Engine.por e.alg, [])
  | .command w, e => if e.accepts then ((wordEffect w e).1, [(wordEffect w e).2]) else (e, [])

/-- The CORE with its oldest event taken, and the effect of that event on the engine `e` of its port. -/
def State.handled (s : State) (ev : Event) (rest : List Event) (e : Engine) : State where
  engines   := s.engines.set ev.port (eventEffect ev.kind e).1
  inbox     := rest
  port      := ev.port
  responses := s.responses ++ (eventEffect ev.kind e).2.map (⟨ev.port, ·⟩)

theorem eventEffect_command_of_not_accepts {e : Engine} (ha : e.accepts = false) (w : Cmd) :
    eventEffect (.command w) e = (e, []) := by
  simp [eventEffect, ha]

theorem eventEffect_command_of_accepts {e : Engine} (ha : e.accepts = true) (w : Cmd) :
    eventEffect (.command w) e = ((wordEffect w e).1, [(wordEffect w e).2]) := by
  simp [eventEffect, ha]

@[simp] theorem eventEffect_alg (kind : EventKind) (e : Engine) : (eventEffect kind e).1.alg = e.alg := by
  cases kind with
  | por => exact Engine.por_alg e.alg
  | command w =>
    cases ha : e.accepts with
    | true => rw [eventEffect_command_of_accepts ha]; exact wordEffect_alg w e
    | false => rw [eventEffect_command_of_not_accepts ha]

/-- A step on a port that has an engine is the effect of the event on that engine. -/
theorem step_eq_handled {s : State} {ev : Event} {rest : List Event} {e : Engine} (hi : s.inbox = ev :: rest)
    (hp : s.engines[ev.port]? = some e) : step s = .next (s.handled ev rest e) := by
  obtain ⟨p, kind⟩ := ev
  unfold State.handled
  cases kind with
  | por =>
    rw [step_por_of_some hi hp]
    simp [eventEffect, State.taken]
  | command w =>
    cases ha : e.accepts with
    | true =>
      have hs : (s.taken p rest).serves e := ⟨hp, e.accepts_eq_true_iff.1 ha⟩
      rw [step_of_command hi, onEngine_of_serves hs, eventEffect_command_of_accepts ha]
      rfl
    | false =>
      rw [step_of_not_accepts hi hp ha, eventEffect_command_of_not_accepts ha, set_getElem?_self hp]
      simp [State.taken]

/-- A step that gives a next state waits, or its oldest event is for a port that has an engine. -/
theorem eq_handled_of_step {s t : State} (h : step s = .next t) :
    (s.inbox = [] ∧ t = s) ∨
    ∃ ev rest e, s.inbox = ev :: rest ∧ s.engines[ev.port]? = some e ∧ t = s.handled ev rest e := by
  rcases step_next h with hwait | ⟨p, kind, rest, e, hi, hp, -⟩
  · exact .inl hwait
  · rw [step_eq_handled hi hp] at h
    cases h
    exact .inr ⟨⟨p, kind⟩, rest, e, hi, hp, rfl⟩

theorem State.handled_engines_self {s : State} {ev : Event} {e : Engine} (hp : s.engines[ev.port]? = some e)
    (rest : List Event) : (s.handled ev rest e).engines[ev.port]? = some (eventEffect ev.kind e).1 :=
  List.getElem?_set_self (lt_length_of_getElem? hp)

/-- No event changes the algorithm of an engine (D1). -/
theorem State.handled_algs {s : State} {ev : Event} {e : Engine} (hp : s.engines[ev.port]? = some e)
    (rest : List Event) : (s.handled ev rest e).engines.map Engine.alg = s.engines.map Engine.alg := by
  have halg : (s.engines.map Engine.alg)[ev.port]? = some e.alg := by rw [List.getElem?_map, hp]; rfl
  rw [State.handled, List.map_set, eventEffect_alg, set_getElem?_self halg]

/-! ### Engines share nothing (R240) -/

/-- Settles O19: a step writes one engine, that of the port which its event names, and keeps its algorithm. -/
theorem enginesShareNothing : Obligations.EnginesShareNothing := by
  intro s t h
  rcases eq_handled_of_step h with ⟨-, rfl⟩ | ⟨ev, rest, e, hi, hp, rfl⟩
  · exact ⟨fun _ _ => rfl, rfl⟩
  · refine ⟨fun q hq => ?_, State.handled_algs hp rest⟩
    have hne : ev.port ≠ q := hq ev (by rw [hi, List.head?_cons])
    exact List.getElem?_set_ne hne

/-- Settles O20: both steps are the effect of one event on one engine. -/
theorem anEngineSeesOnlyItself : Obligations.AnEngineSeesOnlyItself := by
  intro s₁ s₂ t₁ ev h₁ h₂ hsame hstep
  obtain ⟨rest₂, hi₂⟩ := List.head?_eq_some_iff.1 h₂
  rcases eq_handled_of_step hstep with ⟨hi₁, -⟩ | ⟨ev', rest₁, e, hi₁, hp₁, rfl⟩
  · rw [hi₁] at h₁
    cases h₁
  · obtain rfl : ev' = ev := by simpa [hi₁] using h₁
    have hp₂ : s₂.engines[ev'.port]? = some e := hsame.symm.trans hp₁
    refine ⟨s₂.handled ev' rest₂ e, _, step_eq_handled hi₂ hp₂, ?_, rfl, rfl⟩
    rw [State.handled_engines_self hp₁, State.handled_engines_self hp₂]

/-! ### The one way out of a fault (R235, R260) -/

/-- A faulted engine is as it was after every step but its own power-on reset: an event for another port does not reach it,
and a word for its own port is not accepted. -/
theorem step_keeps_faulted_engine {s t : State} {p : Nat} {e : Engine} (hfault : e.faulted = true)
    (hstep : step s = .next t) (hp : s.engines[p]? = some e) (hpor : s.inbox.head? ≠ some ⟨p, .por⟩) :
    t.engines[p]? = some e := by
  rcases eq_handled_of_step hstep with ⟨-, rfl⟩ | ⟨⟨q, kind⟩, rest, d, hi, hd, rfl⟩
  · exact hp
  · by_cases hq : q = p
    · subst hq
      obtain rfl : d = e := Option.some.inj (hd.symm.trans hp)
      rw [State.handled_engines_self hd]
      cases kind with
      | por => exact absurd (by rw [hi, List.head?_cons]) hpor
      | command w => rw [eventEffect_command_of_not_accepts (d.accepts_eq_false_iff.2 (.inl hfault))]
    · exact (List.getElem?_set_ne hq).trans hp

/-- Settles O21: a faulted engine accepts no command, so only its power-on reset changes it, to a fresh engine. -/
theorem onlyPowerOnResetLeavesAFault : Obligations.OnlyPowerOnResetLeavesAFault := by
  intro s e hfault
  have ha : e.accepts = false := e.accepts_eq_false_iff.2 (.inl hfault)
  refine ⟨fun i hp => exec_of_not_accepts hp ha i, fun t p => step_keeps_faulted_engine hfault, ?_⟩
  intro p rest hi hp
  exact ⟨_, Engine.por e.alg, step_eq_handled hi hp, State.handled_engines_self (ev := ⟨p, .por⟩) hp rest, rfl⟩

end Sys2Proof.Machine

/-! SUPPORT. The statements on reset and hazards (70_reset_and_hazards.md): a step on ports that exist completes and keeps
them existing, what a power-on reset touches, and `RESET` as a power-on reset that leaves the fault record alone. -/

namespace Sys2Proof.Machine

/-! ### Every step completes (R265) -/

/-- No event adds an engine or takes one away, so the events that are left are for ports that exist. -/
theorem State.portsExist.handled {s : State} {ev : Event} {rest : List Event} (hports : s.portsExist)
    (hi : s.inbox = ev :: rest) (e : Engine) : (s.handled ev rest e).portsExist := by
  intro next hnext
  have hmem : next ∈ s.inbox := by rw [hi]; exact List.mem_cons_of_mem ev hnext
  rw [State.handled, List.length_set]
  exact hports next hmem

/-- Settles O8: with nothing offered the step waits, and the port of the oldest event has an engine for it. -/
theorem everyStepCompletes : Obligations.EveryStepCompletes := by
  intro s hports
  cases hi : s.inbox with
  | nil => exact ⟨s, step_of_nil hi, hports⟩
  | cons ev rest =>
    have hlt : ev.port < s.engines.length := hports ev (by rw [hi]; exact List.mem_cons_self)
    have hp : s.engines[ev.port]? = some s.engines[ev.port] := List.getElem?_eq_getElem hlt
    exact ⟨_, step_eq_handled hi hp, hports.handled hi _⟩

/-! ### The power-on reset (R260, R262) -/

theorem Engine.por_mode (a : Alg) : (Engine.por a).mode = .absorbing :=
  Engine.mode_absorbing_iff.2 ⟨rfl, rfl, rfl⟩

/-- Settles O14: the step writes `Engine.por`, on the one engine that it resets. -/
theorem powerOnResetIsSilentAndLocal : Obligations.PowerOnResetIsSilentAndLocal :=
  fun _ _ _ e hi hp => ⟨Engine.por e.alg, step_por_of_some hi hp, Engine.por_mode e.alg, rfl⟩

/-! ### RESET against the power-on reset (R261) -/

/-- Of the fields that `RESET` leaves alone, an engine that accepts commands has all but the fault record at their reset
values. -/
theorem reinitialise_eq_por {e : Engine} (hpor : e.porDone = true) (hfault : e.faulted = false) :
    reinitialise e = { Engine.por e.alg with faultCause := e.faultCause, faultCmd := e.faultCmd } := by
  simp [reinitialise, Engine.por, hpor, hfault]

/-- Settles O16: `RESET` leaves `reinitialise`, which is the power-on value apart from the fault record. -/
theorem resetEqualsPowerOnReset : Obligations.ResetEqualsPowerOnReset := by
  rintro s e ⟨hp, hpor, hfault⟩
  rw [← reinitialise_eq_por hpor hfault]
  exact exec_of_serves ⟨hp, hpor, hfault⟩ .reset

end Sys2Proof.Machine
